-- ==== Sys2Proof/Word.lean ====
section
/-! DEFINITION. The two bit-vector types of the machine: the 32-bit word of registers, program counter, instruction
words and immediates (00_scope.md R6), and the byte of the loaded binary (10_state.md R27). -/

namespace Sys2Proof

/-- A 32-bit unsigned quantity: a register, the program counter, an instruction word, an immediate, a port or a datum
(00_scope.md R6). -/
abbrev Word := BitVec 32

/-- One byte of the loaded binary buffer (10_state.md R27). -/
abbrev Byte := BitVec 8

end Sys2Proof
end

