-- ==== Sys2Proof/Config.lean ====
section
/-! DEFINITION. The two parameters the spec leaves open (00_scope.md R7): the numeric opcode codes `OPCODE_CODE` and the
setting `UNIMPLEMENTED_OPS`. A value of `Config` is plain data that the machine carries in its state and never writes, so
that a statement about every state is a statement about every setting of both (notes/assumptions/1.md and 2.md). -/

namespace Sys2Proof

/-- `UNIMPLEMENTED_OPS` (44_undefined_ops.md R180): what mmov, mset, in, push and pop do when executed. -/
inductive UnimplementedOps where
  /-- the execute phase raises `UnimplementedOpcode` (the spec's default) -/
  | fault
  /-- the instruction behaves exactly as nop -/
  | nop
  deriving DecidableEq, Repr

/-- `OPCODE_CODE` (30_encoding.md R66): entry `k` is the 16-bit code of the `k`-th opcode in the order of R65. -/
abbrev OpcodeCode := Vector (BitVec 16) 24

/-- The codes are an injective map (30_encoding.md R66): no two opcodes share a code. -/
abbrev OpcodeCode.Injective (oc : OpcodeCode) : Prop :=
  ∀ j k : Fin 24, oc[j] = oc[k] → j = k

/-- `DEFAULT_OPCODE_CODE` (30_encoding.md R66): the opcodes numbered from 0 in the order of R65. -/
def OpcodeCode.default : OpcodeCode :=
  #v[0, 1, 2, 3, 4, 5, 6, 7, 8, 9, 10, 11, 12, 13, 14, 15, 16, 17, 18, 19, 20, 21, 22, 23]

/-- The implementation parameters of one machine (00_scope.md R7). -/
structure Config where
  opcodeCode : OpcodeCode
  unimplementedOps : UnimplementedOps
  deriving DecidableEq, Repr

/-- The spec's defaults of both parameters (00_scope.md R7). -/
def Config.default : Config :=
  { opcodeCode := OpcodeCode.default, unimplementedOps := .fault }

end Sys2Proof
end

