-- ==== Sys2Proof/Syntax.lean ====
section
/-! DEFINITION. The instructions as syntax: the 24 opcodes (30_encoding.md R65), the eight registers (10_state.md R20), the
two forms of the second operand (30_encoding.md R61 to R63), and `Instr`, one constructor per row of the opcode table. Every
opcode may be encoded in either form and carries a first register field (R60, R64), so every constructor holds that field
(`none` is the Null code 0) and a second operand. -/

namespace Sys2Proof

/-- The closed enumeration of opcodes, in the order of 30_encoding.md R65. The opcode `in` is spelled `inp`. -/
inductive Opcode where
  | nop | jmp | hlt | inc | shr | shl | mov | add | sub | mul | div | je | jn | mmov | mset | xor | inp | out
  | push | pop | jz | jg | jl | cmp
  deriving DecidableEq, Repr

/-- All 24 opcodes, in the order of 30_encoding.md R65. -/
def Opcode.all : List Opcode :=
  [.nop, .jmp, .hlt, .inc, .shr, .shl, .mov, .add, .sub, .mul, .div, .je] ++
  [.jn, .mmov, .mset, .xor, .inp, .out, .push, .pop, .jz, .jg, .jl, .cmp]

/-- An opcode's place in the order of 30_encoding.md R65. -/
def Opcode.number : Opcode → Fin 24
  | .nop => 0 | .jmp => 1 | .hlt => 2 | .inc => 3 | .shr => 4 | .shl => 5 | .mov => 6 | .add => 7
  | .sub => 8 | .mul => 9 | .div => 10 | .je => 11 | .jn => 12 | .mmov => 13 | .mset => 14 | .xor => 15
  | .inp => 16 | .out => 17 | .push => 18 | .pop => 19 | .jz => 20 | .jg => 21 | .jl => 22 | .cmp => 23

/-- The opcodes that use the register named by the first field: a mark in the reg1 column of 30_encoding.md R71, listed
under `uses_reg1` in R76. -/
def Opcode.usesReg1 : Opcode → Bool
  | .inc => true | .shr => true | .shl => true | .mov => true | .add => true | .sub => true | .mul => true
  | .div => true | .xor => true | .out => true | .cmp => true
  | .nop => false | .jmp => false | .hlt => false | .je => false | .jn => false | .mmov => false | .mset => false
  | .inp => false | .push => false | .pop => false | .jz => false | .jg => false | .jl => false

/-- The eight general registers (10_state.md R20). -/
inductive Reg where
  | a | b | c | d | e | x | y | z
  deriving DecidableEq, Repr

/-- The register's slot in the register file (10_state.md R20): code `k` selects slot `k - 1`. -/
def Reg.slot : Reg → Fin 8
  | .a => 0 | .b => 1 | .c => 2 | .d => 3 | .e => 4 | .x => 5 | .y => 6 | .z => 7

/-- The second operand: a register (RR form, one word) or the immediate word that follows (RI form, two words)
(30_encoding.md R61). -/
inductive Src where
  | reg (r2 : Reg)
  | imm (n : Word)
  deriving DecidableEq, Repr

/-- One instruction: its opcode, its first register field `r1` (`none` is Null) and its second operand
(30_encoding.md R60, R61, R64). -/
inductive Instr where
  | nop (r1 : Option Reg) (val : Src)
  | jmp (r1 : Option Reg) (val : Src)
  | hlt (r1 : Option Reg) (val : Src)
  | inc (r1 : Option Reg) (val : Src)
  | shr (r1 : Option Reg) (val : Src)
  | shl (r1 : Option Reg) (val : Src)
  | mov (r1 : Option Reg) (val : Src)
  | add (r1 : Option Reg) (val : Src)
  | sub (r1 : Option Reg) (val : Src)
  | mul (r1 : Option Reg) (val : Src)
  | div (r1 : Option Reg) (val : Src)
  | je (r1 : Option Reg) (val : Src)
  | jn (r1 : Option Reg) (val : Src)
  | mmov (r1 : Option Reg) (val : Src)
  | mset (r1 : Option Reg) (val : Src)
  | xor (r1 : Option Reg) (val : Src)
  | inp (r1 : Option Reg) (val : Src)
  | out (r1 : Option Reg) (val : Src)
  | push (r1 : Option Reg) (val : Src)
  | pop (r1 : Option Reg) (val : Src)
  | jz (r1 : Option Reg) (val : Src)
  | jg (r1 : Option Reg) (val : Src)
  | jl (r1 : Option Reg) (val : Src)
  | cmp (r1 : Option Reg) (val : Src)
  deriving DecidableEq, Repr

/-- The instruction with a given opcode and operand fields. -/
def Instr.ofParts (op : Opcode) (r1 : Option Reg) (val : Src) : Instr :=
  match op with
  | .nop => .nop r1 val | .jmp => .jmp r1 val | .hlt => .hlt r1 val | .inc => .inc r1 val
  | .shr => .shr r1 val | .shl => .shl r1 val | .mov => .mov r1 val | .add => .add r1 val
  | .sub => .sub r1 val | .mul => .mul r1 val | .div => .div r1 val | .je => .je r1 val
  | .jn => .jn r1 val | .mmov => .mmov r1 val | .mset => .mset r1 val | .xor => .xor r1 val
  | .inp => .inp r1 val | .out => .out r1 val | .push => .push r1 val | .pop => .pop r1 val
  | .jz => .jz r1 val | .jg => .jg r1 val | .jl => .jl r1 val | .cmp => .cmp r1 val

/-- The opcode of an instruction. -/
def Instr.opcode : Instr → Opcode
  | .nop _ _ => .nop | .jmp _ _ => .jmp | .hlt _ _ => .hlt | .inc _ _ => .inc | .shr _ _ => .shr
  | .shl _ _ => .shl | .mov _ _ => .mov | .add _ _ => .add | .sub _ _ => .sub | .mul _ _ => .mul
  | .div _ _ => .div | .je _ _ => .je | .jn _ _ => .jn | .mmov _ _ => .mmov | .mset _ _ => .mset
  | .xor _ _ => .xor | .inp _ _ => .inp | .out _ _ => .out | .push _ _ => .push | .pop _ _ => .pop
  | .jz _ _ => .jz | .jg _ _ => .jg | .jl _ _ => .jl | .cmp _ _ => .cmp

/-- The first register field of an instruction. -/
def Instr.r1 : Instr → Option Reg
  | .nop r _ => r | .jmp r _ => r | .hlt r _ => r | .inc r _ => r | .shr r _ => r | .shl r _ => r
  | .mov r _ => r | .add r _ => r | .sub r _ => r | .mul r _ => r | .div r _ => r | .je r _ => r
  | .jn r _ => r | .mmov r _ => r | .mset r _ => r | .xor r _ => r | .inp r _ => r | .out r _ => r
  | .push r _ => r | .pop r _ => r | .jz r _ => r | .jg r _ => r | .jl r _ => r | .cmp r _ => r

/-- The second operand of an instruction. -/
def Instr.val : Instr → Src
  | .nop _ v => v | .jmp _ v => v | .hlt _ v => v | .inc _ v => v | .shr _ v => v | .shl _ v => v
  | .mov _ v => v | .add _ v => v | .sub _ v => v | .mul _ v => v | .div _ v => v | .je _ v => v
  | .jn _ v => v | .mmov _ v => v | .mset _ v => v | .xor _ v => v | .inp _ v => v | .out _ v => v
  | .push _ v => v | .pop _ v => v | .jz _ v => v | .jg _ v => v | .jl _ v => v | .cmp _ v => v

end Sys2Proof
end

