-- ==== Sys2Proof/WellFormed.lean ====
section
/-! DEFINITION. What is well formed: an instruction (30_encoding.md R72: an opcode that uses reg1 has a register in its
first field), a machine's parameters (30_encoding.md R66: the opcode codes are injective) and an image (70_reset_and_hazards.md
R233: a whole number of words). Register codes 9 to 255 (R70) and unassigned opcode codes (R67) are no terms of `Instr`: the
decoder refuses them by name. -/

namespace Sys2Proof

/-- An instruction is well formed when its first field names a register or its opcode uses none (30_encoding.md R72). -/
def Instr.wf (i : Instr) : Bool :=
  !i.opcode.usesReg1 || i.r1.isSome

/-- Parameters are well formed when `OPCODE_CODE` is injective (30_encoding.md R66). -/
abbrev Config.wf (c : Config) : Prop :=
  c.opcodeCode.Injective

/-- An image is well formed when its length is a multiple of 4 (70_reset_and_hazards.md R233); the empty image is. -/
def imageWf (image : List Byte) : Bool :=
  image.length % 4 == 0

end Sys2Proof
end

