-- ==== Sys2Proof/Decode.lean ====
section
/-! DEFINITION. Decoding from bytes, total and rejecting by name (30_encoding.md R60 to R76), then the encoder, written from
the same tables. The codes of the opcodes are an argument (R66). Register codes and the byte order are given here once. -/

namespace Sys2Proof

/-! ### Byte order and fields -/

/-- Four bytes as a little-endian word, the byte at the lowest offset in bits 7:0 (20_memory.md R42). -/
def wordOfBytes (b0 b1 b2 b3 : Byte) : Word :=
  b3 ++ b2 ++ b1 ++ b0

/-- A word's four bytes from the lowest offset on (20_memory.md R42). -/
def bytesOfWord (w : Word) : List Byte :=
  [w.extractLsb' 0 8, w.extractLsb' 8 8, w.extractLsb' 16 8, w.extractLsb' 24 8]

/-- The opcode field, bits 31:16 of the first word (30_encoding.md R60). -/
def opcField (w : Word) : BitVec 16 :=
  w.extractLsb' 16 16

/-- The first register field, bits 15:8 (30_encoding.md R60). -/
def r1Field (w : Word) : Byte :=
  w.extractLsb' 8 8

/-- The second register field, bits 7:0 (30_encoding.md R60). -/
def r2Field (w : Word) : Byte :=
  w.extractLsb' 0 8

/-- The word with the given fields: `opc ++ r1 ++ r2` (30_encoding.md R61). -/
def fieldsWord (opc : BitVec 16) (r1 r2 : Byte) : Word :=
  opc ++ r1 ++ r2

/-! ### Code tables -/

/-- The code of an opcode under `OPCODE_CODE` (30_encoding.md R66). -/
def codeOf (oc : OpcodeCode) (op : Opcode) : BitVec 16 :=
  oc[op.number]

/-- The opcode whose code is `opc`, if any: `OPCODE_CODE^-1` (30_encoding.md R67, R76). -/
def opcodeOf (oc : OpcodeCode) (opc : BitVec 16) : Option Opcode :=
  Opcode.all.find? fun op => codeOf oc op == opc

/-- The code of a register field: 0 for Null, 1 to 8 for A to Z (30_encoding.md R69). -/
def regCode : Option Reg → Byte
  | none => 0
  | some .a => 1 | some .b => 2 | some .c => 3 | some .d => 4
  | some .e => 5 | some .x => 6 | some .y => 7 | some .z => 8

/-! ### Decoding -/

/-- Which register field of the first word a rejection is about: 1 for `r1`, 2 for `r2` (30_encoding.md R70). -/
inductive RegField where
  | first
  | second
  deriving DecidableEq, Repr

/-- Why bytes decode to no instruction. -/
inductive DecodeError where
  /-- the opcode field is no opcode's code (30_encoding.md R67) -/
  | illegalOpcode (opc : BitVec 16)
  /-- a register field holds 9 to 255 (30_encoding.md R70) -/
  | illegalRegister (field : RegField) (code : Byte)
  /-- an opcode that uses reg1 has Null in its first field (30_encoding.md R72) -/
  | nullRegisterOperand (op : Opcode)
  /-- word `k` of the instruction (0 the first, 1 the immediate) is not all there (40_step_cycle.md R101, R105) -/
  | missingWord (k : Nat)
  deriving DecidableEq, Repr

/-- The three fields of a first word that passed every check of 30_encoding.md R76; `r2 = none` is the RI form. -/
structure Head where
  op : Opcode
  r1 : Option Reg
  r2 : Option Reg
  deriving DecidableEq, Repr

/-- A register field: Null, a register, or a rejection (30_encoding.md R69, R70). -/
def decodeReg (field : RegField) (code : Byte) : Except DecodeError (Option Reg) :=
  match code.toNat with
  | 0 => .ok none
  | 1 => .ok (some .a)
  | 2 => .ok (some .b)
  | 3 => .ok (some .c)
  | 4 => .ok (some .d)
  | 5 => .ok (some .e)
  | 6 => .ok (some .x)
  | 7 => .ok (some .y)
  | 8 => .ok (some .z)
  | _ => .error (.illegalRegister field code)

/-- `decode(w)` of 30_encoding.md R76: the checks on the first word in the order the rule gives them. -/
def decodeHead (oc : OpcodeCode) (w : Word) : Except DecodeError Head :=
  match opcodeOf oc (opcField w) with
  | none => .error (.illegalOpcode (opcField w))
  | some op =>
    match decodeReg .first (r1Field w) with
    | .error e => .error e
    | .ok r1 =>
      match decodeReg .second (r2Field w) with
      | .error e => .error e
      | .ok r2 =>
        if op.usesReg1 && r1.isNone then .error (.nullRegisterOperand op)
        else .ok { op := op, r1 := r1, r2 := r2 }

/-- The first word of a byte sequence and what follows it. -/
def takeWord : List Byte → Option (Word × List Byte)
  | b0 :: b1 :: b2 :: b3 :: rest => some (wordOfBytes b0 b1 b2 b3, rest)
  | _ => none

/-- Decode one instruction from bytes: the first word, and in the RI form the immediate word after it (30_encoding.md R61,
R62, R75, R76). Everything about the first word is checked before the second is read (60_exceptions.md R207). -/
def decode (oc : OpcodeCode) (bytes : List Byte) : Except DecodeError (Instr × List Byte) :=
  match takeWord bytes with
  | none => .error (.missingWord 0)
  | some (w, rest) =>
    match decodeHead oc w with
    | .error e => .error e
    | .ok h =>
      match h.r2 with
      | some r => .ok (.ofParts h.op h.r1 (.reg r), rest)
      | none =>
        match takeWord rest with
        | none => .error (.missingWord 1)
        | some (n, rest') => .ok (.ofParts h.op h.r1 (.imm n), rest')

/-! ### Encoding -/

/-- The words of an instruction (30_encoding.md R61): one in the RR form, two in the RI form. -/
def encode (oc : OpcodeCode) (i : Instr) : List Word :=
  match i.val with
  | .reg r => [fieldsWord (codeOf oc i.opcode) (regCode i.r1) (regCode (some r))]
  | .imm n => [fieldsWord (codeOf oc i.opcode) (regCode i.r1) (regCode none), n]

/-- The bytes of an instruction in the image (20_memory.md R42). -/
def encodeBytes (oc : OpcodeCode) (i : Instr) : List Byte :=
  (encode oc i).flatMap bytesOfWord

/-! ### The host's question about a table word -/

/-- The eight bytes (two words, the longest instruction) of a number whose bits are numbered as the opcode table numbers
them; bits from `nbits` on are 0. -/
def tableBytes (nbits w : Nat) : List Byte :=
  (List.range 8).map fun k => BitVec.ofNat 8 (w % 2 ^ nbits / 2 ^ (8 * k))

/-- The instruction the decoder reads from a word of the opcode table, under `DEFAULT_OPCODE_CODE`. -/
def decodeTableWord (nbits w : Nat) : Option Instr :=
  match decode OpcodeCode.default (tableBytes nbits w) with
  | .ok (i, _) => some i
  | .error _ => none

end Sys2Proof
end

