-- ==== Sys2Proof/Machine/State.lean ====
section
/-! DEFINITION. The machine's state (10_state.md R20 to R33), its faults (60_exceptions.md R200, R201), and its value before
the first load (70_reset_and_hazards.md R232). Two fields are the model's own and no architectural state: `config`, the
parameters of 00_scope.md R7, which nothing writes, and `returned`, what the last step handed to the host
(40_step_cycle.md R100), which nothing reads. -/

namespace Sys2Proof.Machine

/-- The run-time faults of 60_exceptions.md R201, each with the information it records. They are raised into `status` by
`Machine.raise` (a NEXT state: the spec gives a faulting step an effect, R110, R200); no meaning and no step answers
`Outcome.fault` (notes/assumptions/4.md). -/
inductive Fault where
  /-- Word `i` (`pc` or `pc + 1`) is read and `i >= nwords` (R202): raised by the fetch of any instruction. Safe: the source
  itself asks for this failure. -/
  | pcOutOfBounds (i : Nat)
  /-- The opcode field is no opcode's code (R203): raised by decode. Safe: the source itself asks for this failure. -/
  | illegalOpcode (opc : BitVec 16)
  /-- A register field holds 9 to 255 (R204): raised by decode. Safe (the spec's D4: the model stops where a machine might
  go on). -/
  | illegalRegister (field : RegField) (code : Byte)
  /-- An opcode that uses reg1 has Null there (R205): raised by decode, and by the meaning of a term the decoder never gives.
  Safe (the spec's D5). -/
  | nullRegisterOperand (op : Opcode)
  /-- `div` with a zero second operand (R206): raised by `execDiv`. Safe (the spec's D8). -/
  | divideByZero
  /-- `shl` or `shr` by 32 or more (R208): raised by `execShl` and `execShr`. Safe (the spec's D9). -/
  | shiftOutOfRange (amount : Word)
  /-- mmov, mset, in, push or pop when `UNIMPLEMENTED_OPS = fault` (R209): raised by their meanings. Safe (the spec's
  D11). -/
  | unimplementedOpcode (op : Opcode)
  deriving DecidableEq, Repr

/-- The reasons a model may refuse an instruction. Every instruction of this machine has its meaning, so none is used. -/
inductive Refusal where
  /-- An arm of `exec` without a meaning yet: raised by no arm. Safe: a refusal proves nothing. -/
  | notModelled (mnemonic : String)
  deriving DecidableEq, Repr

/-- The fault's number (60_exceptions.md R201). -/
def Fault.code : Fault → Nat
  | .pcOutOfBounds _ => 1
  | .illegalOpcode _ => 2
  | .illegalRegister _ _ => 3
  | .nullRegisterOperand _ => 4
  | .divideByZero => 5
  | .shiftOutOfRange _ => 6
  | .unimplementedOpcode _ => 7

/-- The fault's name (60_exceptions.md R201). -/
def Fault.name : Fault → String
  | .pcOutOfBounds _ => "PcOutOfBounds"
  | .illegalOpcode _ => "IllegalOpcode"
  | .illegalRegister _ _ => "IllegalRegister"
  | .nullRegisterOperand _ => "NullRegisterOperand"
  | .divideByZero => "DivideByZero"
  | .shiftOutOfRange _ => "ShiftOutOfRange"
  | .unimplementedOpcode _ => "UnimplementedOpcode"

/-- A fault record `(code, name, info, pc)` (60_exceptions.md R200): the fault, which fixes code, name and info, and the
value of `pc` at the start of the faulting step. -/
structure FaultRecord where
  fault : Fault
  pc : Word
  deriving DecidableEq, Repr

/-- The comparison flag's three values (10_state.md R25). -/
inductive CmpFlag where
  | less
  | equal
  | greater
  deriving DecidableEq, Repr

/-- The number the spec writes for each value: -1, 0, +1 (10_state.md R25). -/
def CmpFlag.toInt : CmpFlag → Int
  | .less => -1
  | .equal => 0
  | .greater => 1

/-- The step machine's state (10_state.md R28). -/
inductive Status where
  | running
  | halted
  | faulted (f : FaultRecord)
  deriving DecidableEq, Repr

/-- The Output event of `out` (10_state.md R31, 43_system_io.md R172). -/
structure OutputEvent where
  port : Word
  data : Word
  deriving DecidableEq, Repr

/-- What a step returns to the host (40_step_cycle.md R100). -/
inductive StepResult where
  | ok (running : Bool) (output : Option OutputEvent)
  | err (f : FaultRecord)
  deriving DecidableEq, Repr

/-- What `load_program` returns to the host (70_reset_and_hazards.md R230, R233). -/
inductive LoadResult where
  | ok
  /-- `LoadError(Malformed, length)`: the image is no whole number of words, and nothing is installed -/
  | malformed (length : Nat)
  deriving DecidableEq, Repr

/-- The loaded binary buffer `prog` as address and byte pairs (20_memory.md R40). An unlisted address holds no byte: it is
outside the buffer. -/
abbrev Memory := List Host.Cell

/-- The one canonical form of a buffer: its addresses are 0, 1, 2, … in order with none left out, and it is a whole number
of words (20_memory.md R40, R44). -/
abbrev Memory.wf (m : Memory) : Prop :=
  m.map Prod.fst = List.range m.length ∧ m.length % 4 = 0

/-- The state of one machine (10_state.md R33). -/
structure State where
  /-- general registers A..Z, slots 0 to 7 (10_state.md R20) -/
  x : Vector Word 8
  /-- program counter, in word units (10_state.md R24) -/
  pc : Word
  /-- comparison flag (10_state.md R25) -/
  cmpf : CmpFlag
  /-- zero flag (10_state.md R26) -/
  zf : Bool
  /-- Running, Halted or Faulted (10_state.md R28) -/
  status : Status
  /-- loaded binary buffer (10_state.md R27) -/
  prog : Memory
  /-- the parameters `OPCODE_CODE` and `UNIMPLEMENTED_OPS` (00_scope.md R7); the model's own field, written by nothing -/
  config : Config
  /-- what the last step returned to the host (40_step_cycle.md R100, R111), `none` when no step was taken since the last
  load; the model's own field, read by nothing -/
  returned : Option StepResult
  deriving DecidableEq, Repr

/-- `nwords`, the number of whole words in the buffer: `length(prog) / 4` (10_state.md R27). -/
def State.nwords (s : State) : Nat :=
  s.prog.length / 4

/-- The running flag (10_state.md R28): `status = Running`. -/
def State.isRunning (s : State) : Bool :=
  decide (s.status = .running)

/-- The state before the first load (70_reset_and_hazards.md R232, 10_state.md R33), with the spec's default
parameters. -/
def State.reset : State where
  x := Vector.replicate 8 0
  pc := 0
  cmpf := .equal
  zf := false
  status := .running
  prog := []
  config := Config.default
  returned := none

end Sys2Proof.Machine
end

