-- ==== Sys2Proof/Machine/Ops.lean ====
section
/-! DEFINITION. The shared operations: the register file's ports, reads of the program buffer, the end of a completed step,
taking a fault, and `load_program`, the one way out of a fault. -/

namespace Sys2Proof.Machine

/-- What a meaning or a step answers. -/
abbrev Res := Host.Outcome State Fault Refusal

/-! ### Register file -/

/-- A read port (10_state.md R20, R23). -/
def readReg (s : State) (r : Reg) : Word :=
  s.x[r.slot]

/-- The write port (10_state.md R20, R23). -/
def writeReg (r : Reg) (d : Word) (s : State) : State :=
  { s with x := s.x.set r.slot d }

/-! ### Program buffer -/

/-- The byte at an offset of the buffer, if the buffer has one there (20_memory.md R40). -/
def Memory.read : Memory → Nat → Option Byte
  | [], _ => none
  | (k, b) :: m, a => if k = a then some b else Memory.read m a

/-- `MemRead(a, 4)` (20_memory.md R42, 00_scope.md R10). -/
def Memory.readWord (m : Memory) (a : Nat) : Option Word :=
  match m.read a, m.read (a + 1), m.read (a + 2), m.read (a + 3) with
  | some b0, some b1, some b2, some b3 => some (wordOfBytes b0 b1 b2 b3)
  | _, _, _, _ => none

/-- The buffer that holds an image from byte 0 on (20_memory.md R46). -/
def Memory.ofImage (image : List Byte) : Memory :=
  (List.range image.length).zip image

/-- The bytes of the buffer, in order. -/
def Memory.bytes (m : Memory) : List Byte :=
  m.map Prod.snd

/-- The byte address of word `i`, exact (20_memory.md R43). -/
def wordAddr (i : Nat) : Nat :=
  4 * i

/-- The word at index `i`, when `i < nwords` (20_memory.md R43, 40_step_cycle.md R101, R105). -/
def readProgWord (s : State) (i : Nat) : Option Word :=
  if i < s.nwords then s.prog.readWord (wordAddr i) else none

/-! ### The end of a step -/

/-- The state after the writeback of a step that raised no fault (40_step_cycle.md R109, R111): the pc, and the result for
the host. The other writes are already in `s`. -/
def retired (pc : Word) (output : Option OutputEvent) (s : State) : State :=
  { s with pc := pc, returned := some (.ok s.isRunning output) }

/-- Ending a step that raised no fault (40_step_cycle.md R109, R111). -/
def retire (pc : Word) (output : Option OutputEvent) (s : State) : Res :=
  .next (retired pc output s)

/-- The state after a fault (40_step_cycle.md R110, 60_exceptions.md R200, R210): `status` is Faulted with the record of the
fault and the pc, the step returns `Err`, and nothing else is written. -/
def faultedBy (f : Fault) (s : State) : State :=
  { s with
    status := .faulted { fault := f, pc := s.pc }
    returned := some (.err { fault := f, pc := s.pc }) }

/-- Taking a fault (40_step_cycle.md R110): the one way every fault of fetch, decode and execute is raised. -/
def raise (f : Fault) (s : State) : Res :=
  .next (faultedBy f s)

/-- A step in Halted (40_step_cycle.md R103). -/
def stepHalted (s : State) : Res :=
  .next { s with returned := some (.ok false none) }

/-- A step in Faulted (40_step_cycle.md R104). -/
def stepFaulted (f : FaultRecord) (s : State) : Res :=
  .next { s with returned := some (.err f) }

/-- The register an opcode that uses reg1 names (30_encoding.md R71); Null there is `NullRegisterOperand` (R72). -/
def withReg1 (op : Opcode) (r1 : Option Reg) (s : State) (k : Reg → Res) : Res :=
  match r1 with
  | some r => k r
  | none => raise (.nullRegisterOperand op) s

/-! ### The only reset, and the only way out of Halted and Faulted -/

/-- `load_program(image)` (70_reset_and_hazards.md R230, R233, R234; 60_exceptions.md R211). -/
def loadProgram (image : List Byte) (s : State) : LoadResult × State :=
  if imageWf image then
    (.ok, { s with
      prog := Memory.ofImage image
      x := Vector.replicate 8 0
      pc := 0
      cmpf := .equal
      zf := false
      status := .running
      returned := none })
  else (.malformed image.length, s)

/-- The state with the given bytes in its buffer from word `pc` on, and Running, so that the next step fetches them; an
image shorter than that is filled with zero bytes (notes/assumptions/6.md). No transaction of the spec does this. -/
def placeAtPc (bytes : List Byte) (s : State) : State :=
  let old := s.prog.bytes
  let a := wordAddr s.pc.toNat
  { s with
    prog := Memory.ofImage
      ((old ++ List.replicate (a - old.length) 0).take a ++ bytes ++ old.drop (a + bytes.length))
    status := .running }

end Sys2Proof.Machine
end

