-- ==== Sys2Proof/Machine/Operands.lean ====
section
/-! DEFINITION. The second operand, the instruction length and the pre-advanced pc (30_encoding.md R61 to R63,
40_step_cycle.md R106, R107), and the shape every ALU instruction has (41_alu.md R140). -/

namespace Sys2Proof.Machine

/-- `val`: the register in the RR form, the immediate as it stands in the RI form (30_encoding.md R62, R63). -/
def srcValue (val : Src) (s : State) : Word :=
  match val with
  | .reg r => readReg s r
  | .imm n => n

/-- `len`: 1 word in the RR form, 2 in the RI form (30_encoding.md R61). -/
def srcLen (val : Src) : Nat :=
  match val with
  | .reg _ => 1
  | .imm _ => 2

/-- `npc = (pc + len) mod 2^32` (40_step_cycle.md R107). -/
def nextPc (val : Src) (s : State) : Word :=
  BitVec.ofNat 32 (s.pc.toNat + srcLen val)

/-- An ALU instruction (41_alu.md R140): read reg1 and `val`, compute, write reg1 or raise the ALU's fault. Both reads
happen before the write (10_state.md R23). -/
def aluOp (op : Opcode) (r1 : Option Reg) (val : Src) (s : State) (alu : Word → Word → Except Fault Word) : Res :=
  withReg1 op r1 s fun r =>
    match alu (readReg s r) (srcValue val s) with
    | .error f => raise f s
    | .ok d => retire (nextPc val s) none (writeReg r d s)

/-- A jump or branch (40_step_cycle.md R109, 42_compare_branch.md R157): `pc` becomes `val` when taken, else `npc`. -/
def branchOp (taken : Bool) (val : Src) (s : State) : Res :=
  retire (if taken then srcValue val s else nextPc val s) none s

/-- An opcode without defined effect (44_undefined_ops.md R180). -/
def undefinedOp (op : Opcode) (val : Src) (s : State) : Res :=
  match s.config.unimplementedOps with
  | .fault => raise (.unimplementedOpcode op) s
  | .nop => retire (nextPc val s) none s

end Sys2Proof.Machine
end

