-- ==== Sys2Proof/Machine/Flags.lean ====
section
/-! DEFINITION. The flags: what cmp writes (42_compare_branch.md R150) and what each branch tests (R152 to R156). -/

namespace Sys2Proof.Machine

/-- `cmpf` of a comparison, unsigned (42_compare_branch.md R150). -/
def compareFlag (a val : Word) : CmpFlag :=
  if a.toNat < val.toNat then .less
  else if a.toNat = val.toNat then .equal
  else .greater

/-- `zf` of a comparison (42_compare_branch.md R150). -/
def compareZero (a val : Word) : Bool :=
  a == val

/-- Write both flags (42_compare_branch.md R150). -/
def setFlags (cmpf : CmpFlag) (zf : Bool) (s : State) : State :=
  { s with cmpf := cmpf, zf := zf }

/-- je's condition: `cmpf = 0` (42_compare_branch.md R152). -/
def condEqual (s : State) : Bool :=
  decide (s.cmpf.toInt = 0)

/-- jn's condition: `cmpf != 0` (42_compare_branch.md R153). -/
def condNotEqual (s : State) : Bool :=
  decide (s.cmpf.toInt ≠ 0)

/-- jg's condition: `cmpf > 0` (42_compare_branch.md R154). -/
def condGreater (s : State) : Bool :=
  decide (0 < s.cmpf.toInt)

/-- jl's condition: `cmpf < 0` (42_compare_branch.md R155). -/
def condLess (s : State) : Bool :=
  decide (s.cmpf.toInt < 0)

/-- jz's condition: `zf` (42_compare_branch.md R156). -/
def condZero (s : State) : Bool :=
  s.zf

end Sys2Proof.Machine
end

