-- ==== Sys2Proof/Machine/Alu.lean ====
section
/-! DEFINITION. The ALU and move instructions: mov, inc, shl, shr, add, sub, mul, div, xor (41_alu.md R130 to R140). Each
operation is computed exactly on natural numbers and narrowed at the end. None writes a flag. -/

namespace Sys2Proof.Machine

/-! ### The ALU's operations -/

/-- MOVE: `val` (41_alu.md R130). -/
def aluMove (_a val : Word) : Except Fault Word :=
  .ok val

/-- INC: `(a + 1) mod 2^32` (41_alu.md R131). -/
def aluInc (a _val : Word) : Except Fault Word :=
  .ok (BitVec.ofNat 32 (a.toNat + 1))

/-- SHL: zeros in from below, bits above 31 lost; an amount of 32 or more is a fault (41_alu.md R132). -/
def aluShl (a val : Word) : Except Fault Word :=
  if 32 ≤ val.toNat then .error (.shiftOutOfRange val)
  else .ok (BitVec.ofNat 32 (a.toNat * 2 ^ val.toNat))

/-- SHR: logical, zeros in at bit 31; an amount of 32 or more is a fault (41_alu.md R133). -/
def aluShr (a val : Word) : Except Fault Word :=
  if 32 ≤ val.toNat then .error (.shiftOutOfRange val)
  else .ok (BitVec.ofNat 32 (a.toNat / 2 ^ val.toNat))

/-- ADD: `(a + val) mod 2^32` (41_alu.md R134). -/
def aluAdd (a val : Word) : Except Fault Word :=
  .ok (BitVec.ofNat 32 (a.toNat + val.toNat))

/-- SUB: `(a - val) mod 2^32` (41_alu.md R135). -/
def aluSub (a val : Word) : Except Fault Word :=
  .ok (BitVec.ofInt 32 ((a.toNat : Int) - (val.toNat : Int)))

/-- MUL: the low 32 bits of the exact product (41_alu.md R136). -/
def aluMul (a val : Word) : Except Fault Word :=
  .ok (BitVec.ofNat 32 (a.toNat * val.toNat))

/-- DIV: the unsigned quotient rounded toward zero; a zero divisor is a fault (41_alu.md R137). -/
def aluDiv (a val : Word) : Except Fault Word :=
  if val.toNat = 0 then .error .divideByZero
  else .ok (BitVec.ofNat 32 (a.toNat / val.toNat))

/-- XOR: bit by bit (41_alu.md R138). -/
def aluXor (a val : Word) : Except Fault Word :=
  .ok (a ^^^ val)

/-! ### The instructions -/

/-- mov (41_alu.md R130): `x[reg1] <- val`. -/
def execMov (r1 : Option Reg) (val : Src) (s : State) : Res :=
  aluOp .mov r1 val s aluMove

/-- inc (41_alu.md R131): `x[reg1] <- (a + 1) mod 2^32`; `val` is ignored. -/
def execInc (r1 : Option Reg) (val : Src) (s : State) : Res :=
  aluOp .inc r1 val s aluInc

/-- shl (41_alu.md R132). -/
def execShl (r1 : Option Reg) (val : Src) (s : State) : Res :=
  aluOp .shl r1 val s aluShl

/-- shr (41_alu.md R133). -/
def execShr (r1 : Option Reg) (val : Src) (s : State) : Res :=
  aluOp .shr r1 val s aluShr

/-- add (41_alu.md R134). -/
def execAdd (r1 : Option Reg) (val : Src) (s : State) : Res :=
  aluOp .add r1 val s aluAdd

/-- sub (41_alu.md R135). -/
def execSub (r1 : Option Reg) (val : Src) (s : State) : Res :=
  aluOp .sub r1 val s aluSub

/-- mul (41_alu.md R136). -/
def execMul (r1 : Option Reg) (val : Src) (s : State) : Res :=
  aluOp .mul r1 val s aluMul

/-- div (41_alu.md R137). -/
def execDiv (r1 : Option Reg) (val : Src) (s : State) : Res :=
  aluOp .div r1 val s aluDiv

/-- xor (41_alu.md R138). -/
def execXor (r1 : Option Reg) (val : Src) (s : State) : Res :=
  aluOp .xor r1 val s aluXor

end Sys2Proof.Machine
end

