-- ==== Sys2Proof/Machine/Branch.lean ====
section
/-! DEFINITION. Compare and control transfer: cmp, jmp, je, jn, jg, jl, jz (42_compare_branch.md R150 to R158). The first
register field of a jump or branch is ignored. -/

namespace Sys2Proof.Machine

/-- cmp (42_compare_branch.md R150): writes both flags, no register. -/
def execCmp (r1 : Option Reg) (val : Src) (s : State) : Res :=
  withReg1 .cmp r1 s fun r =>
    retire (nextPc val s) none
      (setFlags (compareFlag (readReg s r) (srcValue val s)) (compareZero (readReg s r) (srcValue val s)) s)

/-- jmp (42_compare_branch.md R151): `pc <- val`. -/
def execJmp (_r1 : Option Reg) (val : Src) (s : State) : Res :=
  branchOp true val s

/-- je (42_compare_branch.md R152): `if cmpf = 0: pc <- val`. -/
def execJe (_r1 : Option Reg) (val : Src) (s : State) : Res :=
  branchOp (condEqual s) val s

/-- jn (42_compare_branch.md R153): `if cmpf != 0: pc <- val`. -/
def execJn (_r1 : Option Reg) (val : Src) (s : State) : Res :=
  branchOp (condNotEqual s) val s

/-- jg (42_compare_branch.md R154): `if cmpf > 0: pc <- val`. -/
def execJg (_r1 : Option Reg) (val : Src) (s : State) : Res :=
  branchOp (condGreater s) val s

/-- jl (42_compare_branch.md R155): `if cmpf < 0: pc <- val`. -/
def execJl (_r1 : Option Reg) (val : Src) (s : State) : Res :=
  branchOp (condLess s) val s

/-- jz (42_compare_branch.md R156): `if zf: pc <- val`. -/
def execJz (_r1 : Option Reg) (val : Src) (s : State) : Res :=
  branchOp (condZero s) val s

end Sys2Proof.Machine
end

