-- ==== Sys2Proof/Machine/SystemIo.lean ====
section
/-! DEFINITION. System and I/O instructions: nop, hlt, out (43_system_io.md R170 to R172). -/

namespace Sys2Proof.Machine

/-- nop (43_system_io.md R170): only the pc advances. -/
def execNop (_r1 : Option Reg) (val : Src) (s : State) : Res :=
  retire (nextPc val s) none s

/-- hlt (43_system_io.md R171): `status <- Halted`; the pc advances as for every instruction. -/
def execHlt (_r1 : Option Reg) (val : Src) (s : State) : Res :=
  retire (nextPc val s) none { s with status := .halted }

/-- out (43_system_io.md R172): emits the event with the port from reg1 and the datum `val`. -/
def execOut (r1 : Option Reg) (val : Src) (s : State) : Res :=
  withReg1 .out r1 s fun r =>
    retire (nextPc val s) (some { port := readReg s r, data := srcValue val s }) s

end Sys2Proof.Machine
end

