-- ==== Sys2Proof/Machine/Undefined.lean ====
section
/-! DEFINITION. The opcodes without defined effect: mmov, mset, in, push, pop (44_undefined_ops.md R180 to R185). The parameter
`UNIMPLEMENTED_OPS` selects what they do: take the fault `UnimplementedOpcode`, or behave as nop. Both register fields are
ignored but for the length. -/

namespace Sys2Proof.Machine

/-- mmov (44_undefined_ops.md R181). -/
def execMmov (_r1 : Option Reg) (val : Src) (s : State) : Res :=
  undefinedOp .mmov val s

/-- mset (44_undefined_ops.md R182). -/
def execMset (_r1 : Option Reg) (val : Src) (s : State) : Res :=
  undefinedOp .mset val s

/-- in (44_undefined_ops.md R183). -/
def execInp (_r1 : Option Reg) (val : Src) (s : State) : Res :=
  undefinedOp .inp val s

/-- push (44_undefined_ops.md R184). -/
def execPush (_r1 : Option Reg) (val : Src) (s : State) : Res :=
  undefinedOp .push val s

/-- pop (44_undefined_ops.md R185). -/
def execPop (_r1 : Option Reg) (val : Src) (s : State) : Res :=
  undefinedOp .pop val s

end Sys2Proof.Machine
end

