-- ==== Sys2Proof/Machine/Dispatch.lean ====
section
/-! DEFINITION. Dispatch on the opcode (30_encoding.md R68, 40_step_cycle.md R108): one arm per instruction. -/

namespace Sys2Proof.Machine

/-- The execute and writeback phases of one instruction at a state whose pc is at its first word. -/
def exec (i : Instr) (s : State) : Host.Outcome State Fault Refusal :=
  match i with
  | .nop r1 val => Sys2Proof.Machine.execNop r1 val s
  | .jmp r1 val => Sys2Proof.Machine.execJmp r1 val s
  | .hlt r1 val => Sys2Proof.Machine.execHlt r1 val s
  | .inc r1 val => Sys2Proof.Machine.execInc r1 val s
  | .shr r1 val => Sys2Proof.Machine.execShr r1 val s
  | .shl r1 val => Sys2Proof.Machine.execShl r1 val s
  | .mov r1 val => Sys2Proof.Machine.execMov r1 val s
  | .add r1 val => Sys2Proof.Machine.execAdd r1 val s
  | .sub r1 val => Sys2Proof.Machine.execSub r1 val s
  | .mul r1 val => Sys2Proof.Machine.execMul r1 val s
  | .div r1 val => Sys2Proof.Machine.execDiv r1 val s
  | .je r1 val => Sys2Proof.Machine.execJe r1 val s
  | .jn r1 val => Sys2Proof.Machine.execJn r1 val s
  | .mmov r1 val => Sys2Proof.Machine.execMmov r1 val s
  | .mset r1 val => Sys2Proof.Machine.execMset r1 val s
  | .xor r1 val => Sys2Proof.Machine.execXor r1 val s
  | .inp r1 val => Sys2Proof.Machine.execInp r1 val s
  | .out r1 val => Sys2Proof.Machine.execOut r1 val s
  | .push r1 val => Sys2Proof.Machine.execPush r1 val s
  | .pop r1 val => Sys2Proof.Machine.execPop r1 val s
  | .jz r1 val => Sys2Proof.Machine.execJz r1 val s
  | .jg r1 val => Sys2Proof.Machine.execJg r1 val s
  | .jl r1 val => Sys2Proof.Machine.execJl r1 val s
  | .cmp r1 val => Sys2Proof.Machine.execCmp r1 val s

end Sys2Proof.Machine
end

