-- ==== Sys2Proof/Machine/Fetch.lean ====
section
/-! DEFINITION. Fetch, decode and immediate fetch (40_step_cycle.md R101, R102, R105), in the order of R112 and of the fault
priority 60_exceptions.md R207. -/

namespace Sys2Proof.Machine

/-- The fault a rejection of the decoder raises at a given pc (60_exceptions.md R202 to R205). -/
def faultOfDecode (pc : Word) : DecodeError → Fault
  | .illegalOpcode opc => .illegalOpcode opc
  | .illegalRegister field code => .illegalRegister field code
  | .nullRegisterOperand op => .nullRegisterOperand op
  | .missingWord k => .pcOutOfBounds (pc.toNat + k)

/-- Fetch the first word, decode it, and in the RI form fetch the immediate (40_step_cycle.md R112). -/
def fetchDecode (s : State) : Except Fault Instr :=
  match readProgWord s s.pc.toNat with
  | none => .error (.pcOutOfBounds s.pc.toNat)
  | some w =>
    match decodeHead s.config.opcodeCode w with
    | .error e => .error (faultOfDecode s.pc e)
    | .ok h =>
      match h.r2 with
      | some r => .ok (.ofParts h.op h.r1 (.reg r))
      | none =>
        match readProgWord s (s.pc.toNat + 1) with
        | none => .error (.pcOutOfBounds (s.pc.toNat + 1))
        | some n => .ok (.ofParts h.op h.r1 (.imm n))

/-- The bytes of the program from the word at pc on (20_memory.md R43). -/
def bytesAtPc (s : State) : List Byte :=
  s.prog.bytes.drop (wordAddr s.pc.toNat)

end Sys2Proof.Machine
end

