-- ==== Sys2Proof/Machine/Step.lean ====
section
/-! DEFINITION. One step (40_step_cycle.md R112), and the state in which the next step runs a given table word. -/

namespace Sys2Proof.Machine

/-- `step()` of 40_step_cycle.md R112. What it returns to the host is the next state's `returned`. -/
def step (s : State) : Host.Outcome State Fault Refusal :=
  match s.status with
  | .halted => stepHalted s
  | .faulted f => stepFaulted f s
  | .running =>
    match fetchDecode s with
    | .error f => raise f s
    | .ok i => exec i s

/-- The state whose next step fetches and runs the instruction of a table word (notes/assumptions/6.md). -/
def State.withFetchWord (s : State) (nbits w : Nat) : State :=
  placeAtPc (tableBytes nbits w) s

end Sys2Proof.Machine
end

