-- ==== Sys2Proof/Machine/Transactions.lean ====
section
/-! DEFINITION. The two transactions of the host, `load_program` and `step`, and what each returns (40_step_cycle.md R100, R113;
70_reset_and_hazards.md R238). There is no other interaction. -/

namespace Sys2Proof.Machine

/-- What the host may ask of the CORE (70_reset_and_hazards.md R238). -/
inductive Transaction where
  | loadProgram (image : List Byte)
  | step
  deriving DecidableEq, Repr

/-- What the CORE answers (70_reset_and_hazards.md R238); `noAnswer` stands for a step the model does not give. -/
inductive Response where
  | load (r : LoadResult)
  | stepped (r : StepResult)
  | noAnswer
  deriving DecidableEq, Repr

/-- One transaction: its answer and the state after it (40_step_cycle.md R113). -/
def transact (t : Transaction) (s : State) : Response × State :=
  match t with
  | .loadProgram image => (.load (loadProgram image s).1, (loadProgram image s).2)
  | .step =>
    match step s with
    | .next s' =>
      match s'.returned with
      | some r => (.stepped r, s')
      | none => (.noAnswer, s')
    | .fault _ => (.noAnswer, s)
    | .refused _ => (.noAnswer, s)

/-- The transactions of a host, in the order it makes them: the answers and the last state (20_memory.md R48). -/
def transactAll (ts : List Transaction) (s : State) : List Response × State :=
  match ts with
  | [] => ([], s)
  | t :: ts => ((transact t s).1 :: (transactAll ts (transact t s).2).1, (transactAll ts (transact t s).2).2)

end Sys2Proof.Machine
end

