-- ==== Sys2Proof/Safety.lean ====
section
/-! DEFINITION. What claims about runs are stated in: the end of a run (70_reset_and_hazards.md R237), the state invariant, and
the claim that a recorded fault is explained by the state that holds it. -/

namespace Sys2Proof.Machine

/-- No fault has stopped the machine. -/
def State.Safe (s : State) : Prop :=
  ∀ f, s.status ≠ .faulted f

/-- A run ends normally with the step from Running that returns `Ok(false, none)` (70_reset_and_hazards.md R237). -/
def EndsNormally (s t : State) : Prop :=
  s.status = .running ∧ step s = .next t ∧ t.returned = some (.ok false none)

/-- A run ends abnormally with the step from Running that returns `Err(f)` (70_reset_and_hazards.md R237). -/
def EndsAbnormally (s t : State) (f : FaultRecord) : Prop :=
  s.status = .running ∧ step s = .next t ∧ t.returned = some (.err f)

/-- The invariant of every state a host can bring about: the opcode codes are injective (30_encoding.md R66), the buffer has
its canonical form (20_memory.md R40, R44), a set zero flag goes with an equal comparison flag (10_state.md R26), and in
Faulted the pc still names the faulting instruction (40_step_cycle.md R110). -/
structure State.Inv (s : State) : Prop where
  config_wf : s.config.wf
  prog_wf : Memory.wf s.prog
  zf_equal : s.zf = true → s.cmpf = .equal
  faulted_pc : ∀ f, s.status = .faulted f → f.pc = s.pc

/-- A recorded fault is explained by the state: with `status` put back to Running, a step raises the same record again
(40_step_cycle.md R110: a faulting step leaves everything that caused the fault as it was). -/
def State.FaultExplained (s : State) : Prop :=
  ∀ f, s.status = .faulted f →
    ∃ t, step { s with status := .running } = .next t ∧ t.status = .faulted f

end Sys2Proof.Machine
end

