-- ==== Sys2Proof/Certificates/Slice0/Obligations.lean ====
section
/-! DEFINITION. The statements for the provers, with the small predicates they are written in. Effects are stated on natural
numbers, independently of how the meanings compute them. -/

namespace Sys2Proof.Claims

open Sys2Proof.Machine

/-- Nothing that a register-writing, flag-writing or status-writing instruction must leave alone has changed: every byte of
the program buffer and the parameters. -/
def SameProgram (s t : State) : Prop :=
  (∀ a, Memory.read t.prog a = Memory.read s.prog a) ∧ t.prog = s.prog ∧ t.config = s.config

/-- No register has changed. -/
def SameRegs (s t : State) : Prop :=
  ∀ q, readReg t q = readReg s q

/-- Neither flag has changed. -/
def SameFlags (s t : State) : Prop :=
  t.cmpf = s.cmpf ∧ t.zf = s.zf

/-- The pc has moved past the instruction: by one word in the RR form, by two in the RI form, modulo `2^32`. -/
def Advanced (val : Src) (s t : State) : Prop :=
  match val with
  | .reg _ => t.pc.toNat = (s.pc.toNat + 1) % 2 ^ 32
  | .imm _ => t.pc.toNat = (s.pc.toNat + 2) % 2 ^ 32

/-- A completed ALU step: register `r` holds `d`, every other register, the flags, the status and the program are as before,
the pc has moved past the instruction, and the host gets no Output event. -/
def WroteReg (r : Reg) (d : Nat) (val : Src) (s t : State) : Prop :=
  (readReg t r).toNat = d ∧ (∀ q, q ≠ r → readReg t q = readReg s q) ∧ SameFlags s t ∧ t.status = s.status ∧
    SameProgram s t ∧ Advanced val s t ∧ t.returned = some (.ok s.isRunning none)

/-- A completed jump or branch: the pc alone has changed, to the target when taken and past the instruction otherwise. -/
def Branched (taken : Prop) (val : Src) (s t : State) : Prop :=
  (taken → t.pc = srcValue val s) ∧ (¬ taken → Advanced val s t) ∧ SameRegs s t ∧ SameFlags s t ∧
    t.status = s.status ∧ SameProgram s t ∧ t.returned = some (.ok s.isRunning none)

/-- A completed step without any effect but the pc's advance. -/
def OnlyAdvanced (val : Src) (s t : State) : Prop :=
  SameRegs s t ∧ SameFlags s t ∧ t.status = s.status ∧ SameProgram s t ∧ Advanced val s t ∧
    t.returned = some (.ok s.isRunning none)

/-- A fault was taken: the status and the host's result hold its record, with the pc of the faulting instruction, and
registers, pc, flags and program are as before. -/
def FaultTaken (f : Fault) (s t : State) : Prop :=
  t.status = .faulted ⟨f, s.pc⟩ ∧ t.returned = some (.err ⟨f, s.pc⟩) ∧ SameRegs s t ∧ t.pc = s.pc ∧ SameFlags s t ∧
    SameProgram s t

/-- Under the default codes the instruction is the word `code ++ r1 ++ r2` in the RR form, and that word with 0 in its low
byte followed by the immediate in the RI form. -/
def EncodedWith (code : Nat) (i : Instr) : Prop :=
  (encode OpcodeCode.default i).map BitVec.toNat =
    match i.val with
    | .reg q => [code * 65536 + (regCode i.r1).toNat * 256 + (regCode (some q)).toNat]
    | .imm n => [code * 65536 + (regCode i.r1).toNat * 256, n.toNat]

/-- The opcodes whose rule writes `x[reg1]` (10_state.md R21). -/
def writesReg1 (op : Opcode) : Prop :=
  op ∈ [Opcode.mov, .inc, .shl, .shr, .add, .sub, .mul, .div, .xor]

/-- jmp and the conditional branches (30_encoding.md R84). -/
def isBranch (op : Opcode) : Prop :=
  op ∈ [Opcode.jmp, .je, .jn, .jz, .jg, .jl]

/-- The opcodes without defined effect (44_undefined_ops.md). -/
def isUndefined (op : Opcode) : Prop :=
  op ∈ [Opcode.mmov, .mset, .inp, .push, .pop]

/-- The opcodes that use neither operand's value (30_encoding.md R71). -/
def ignoresVal (op : Opcode) : Prop :=
  op ∈ [Opcode.nop, .hlt, .inc, .mmov, .mset, .inp, .push, .pop]

/-- `cmpf` of an unsigned comparison, as the number the spec writes. -/
def orderOf (a v : Nat) : Int :=
  if a < v then -1 else if a = v then 0 else 1

end Sys2Proof.Claims

open Sys2Proof Sys2Proof.Machine Sys2Proof.Claims

/-! ### Reset and load -/

/-- 70_reset_and_hazards.md R232, 10_state.md R33. The flags' and the buffer's values are the spec's own choices D19 and D18;
the parameters are its defaults (R7); `returned` is the model's own (notes/assumptions/3.md). -/
def Obligations.StateBeforeFirstLoad : Prop :=
  (∀ r, readReg State.reset r = 0) ∧ State.reset.pc = 0 ∧ State.reset.cmpf.toInt = 0 ∧ State.reset.zf = false ∧
    State.reset.status = .running ∧ State.reset.prog = [] ∧ State.reset.nwords = 0 ∧
    State.reset.config.opcodeCode = OpcodeCode.default ∧ State.reset.config.unimplementedOps = .fault ∧
    ∃ t, step State.reset = .next t ∧ FaultTaken (.pcOutOfBounds 0) State.reset t

/-- 70_reset_and_hazards.md R230: a well-formed image is loaded in every status, and the load sets all state. The cleared
flags' values are the spec's own choice D19. -/
def Obligations.LoadProgramResetsEverything : Prop :=
  ∀ (image : List Byte) (s : State), image.length % 4 = 0 →
    (loadProgram image s).1 = .ok ∧
      (∀ r, readReg (loadProgram image s).2 r = 0) ∧ (loadProgram image s).2.pc = 0 ∧
      (loadProgram image s).2.cmpf.toInt = 0 ∧ (loadProgram image s).2.zf = false ∧
      (loadProgram image s).2.status = .running ∧ (loadProgram image s).2.nwords = image.length / 4 ∧
      (∀ a, Memory.read (loadProgram image s).2.prog a = image[a]?) ∧ (loadProgram image s).2.config = s.config

/-- 70_reset_and_hazards.md R233, R234 (the spec's own choices D16 and D17). -/
def Obligations.MalformedLoadChangesNothing : Prop :=
  ∀ (image : List Byte) (s : State), image.length % 4 ≠ 0 →
    transact (.loadProgram image) s = (.load (.malformed image.length), s)

/-- 20_memory.md R42, R43, R46: after a load, word `i` is the little-endian number of bytes `4i` to `4i + 3` of the image,
and no word at or past `nwords` can be read. The byte formula is general knowledge by the spec's own mark K1
(notes/assumptions/10.md). -/
def Obligations.LoadedWordsAreLittleEndian : Prop :=
  ∀ (image : List Byte) (s : State), image.length % 4 = 0 →
    (∀ (i : Nat) (b0 b1 b2 b3 : Byte), image[4 * i]? = some b0 → image[4 * i + 1]? = some b1 →
      image[4 * i + 2]? = some b2 → image[4 * i + 3]? = some b3 →
      ∃ w, readProgWord (loadProgram image s).2 i = some w ∧
        w.toNat = b0.toNat + b1.toNat * 2 ^ 8 + b2.toNat * 2 ^ 16 + b3.toNat * 2 ^ 24) ∧
    (∀ i, image.length / 4 ≤ i → readProgWord (loadProgram image s).2 i = none)

/-- 70_reset_and_hazards.md R231: with the flags a load leaves, je is taken and jn, jg, jl and jz are not. Rests on the
spec's own choice D19. -/
def Obligations.BranchesBeforeTheFirstCompare : Prop :=
  ∀ (image : List Byte) (s : State) (r1 : Option Reg) (v : Src), image.length % 4 = 0 →
    (∃ t, exec (.je r1 v) (loadProgram image s).2 = .next t ∧ t.pc = srcValue v (loadProgram image s).2) ∧
    (∃ t, exec (.jn r1 v) (loadProgram image s).2 = .next t ∧ Advanced v (loadProgram image s).2 t) ∧
    (∃ t, exec (.jg r1 v) (loadProgram image s).2 = .next t ∧ Advanced v (loadProgram image s).2 t) ∧
    (∃ t, exec (.jl r1 v) (loadProgram image s).2 = .next t ∧ Advanced v (loadProgram image s).2 t) ∧
    (∃ t, exec (.jz r1 v) (loadProgram image s).2 = .next t ∧ Advanced v (loadProgram image s).2 t)

/-! ### Encoding and decoding -/

/-- 30_encoding.md R60: the three fields of the first word, and its four bytes in the byte stream. -/
def Obligations.FirstWordFields : Prop :=
  ∀ (oc : OpcodeCode) (i : Instr), ∃ w rest, encode oc i = w :: rest ∧
    w.toNat / 2 ^ 16 = (codeOf oc i.opcode).toNat ∧ w.toNat / 2 ^ 8 % 2 ^ 8 = (regCode i.r1).toNat ∧
    w.toNat % 2 ^ 8 = (match i.val with | .reg q => (regCode (some q)).toNat | .imm _ => 0) ∧
    (encodeBytes oc i).take 4 =
      [BitVec.ofNat 8 (w.toNat % 2 ^ 8), regCode i.r1, BitVec.ofNat 8 ((codeOf oc i.opcode).toNat % 2 ^ 8),
        BitVec.ofNat 8 ((codeOf oc i.opcode).toNat / 2 ^ 8)]

/-- 30_encoding.md R62: in the RI form the operand is the whole second word as it stands; in the RR form no word follows and
no immediate is in the first. -/
def Obligations.ImmediateIsTheWholeSecondWord : Prop :=
  ∀ (oc : OpcodeCode) (w : Word) (rest rest' : List Byte) (i : Instr),
    decode oc (bytesOfWord w ++ rest) = .ok (i, rest') →
      (w.toNat % 2 ^ 8 = 0 → ∃ n, rest = bytesOfWord n ++ rest' ∧ i.val = .imm n ∧ ∀ s, srcValue i.val s = n) ∧
      (w.toNat % 2 ^ 8 ≠ 0 → rest' = rest ∧ ∃ q, (regCode (some q)).toNat = w.toNat % 2 ^ 8 ∧ i.val = .reg q)

/-- Decoding an encoded well-formed instruction gives it back and leaves what follows, whatever the (injective) opcode codes:
every operand at every value (30_encoding.md R60, R61, R66, R76). -/
def Obligations.DecodeOfEncodeIsIdentity : Prop :=
  ∀ (oc : OpcodeCode), oc.Injective → ∀ (i : Instr) (rest : List Byte), i.wf = true →
    decode oc (encodeBytes oc i ++ rest) = .ok (i, rest)

/-- The other direction: what decodes is well formed, and the bytes consumed are exactly its encoding, so each byte sequence
has one meaning and each instruction one encoding (30_encoding.md R74, R76). -/
def Obligations.EncodeOfDecodeIsIdentity : Prop :=
  ∀ (oc : OpcodeCode) (bytes : List Byte) (i : Instr) (rest : List Byte),
    decode oc bytes = .ok (i, rest) → i.wf = true ∧ bytes = encodeBytes oc i ++ rest

/-- Words of 95_test_vectors.md and 43_system_io.md, byte by byte from the fields of 30_encoding.md R60 and R66. -/
def Obligations.SampleWordsDecode : Prop :=
  decode OpcodeCode.default [0x00, 0x01, 0x06, 0x00, 0x05, 0x00, 0x00, 0x00] = .ok (.mov (some .a) (.imm 5), []) ∧
  decode OpcodeCode.default [0x03, 0x04, 0x0F, 0x00] = .ok (.xor (some .d) (.reg .c), []) ∧
  decode OpcodeCode.default [0x00, 0x00, 0x15, 0x00, 0x04, 0x00, 0x00, 0x00] = .ok (.jg none (.imm 4), []) ∧
  decode OpcodeCode.default [0x00, 0x01, 0x11, 0x00, 0x2A, 0x00, 0x00, 0x00] = .ok (.out (some .a) (.imm 42), []) ∧
  decode OpcodeCode.default [0x02, 0x01, 0x0D, 0x00] = .ok (.mmov (some .a) (.reg .b), [])

/-- 30_encoding.md R67: `IllegalOpcode` exactly for the fields that are no opcode's code; under the default codes these are
24 to 65535. -/
def Obligations.IllegalOpcodeExactly : Prop :=
  (∀ (oc : OpcodeCode) (w : Word) (opc : BitVec 16),
    decodeHead oc w = .error (.illegalOpcode opc) ↔
      opc.toNat = w.toNat / 2 ^ 16 ∧ ∀ op, codeOf oc op ≠ opc) ∧
  (∀ (opc : BitVec 16), (∀ op, codeOf OpcodeCode.default op ≠ opc) ↔ 24 ≤ opc.toNat)

/-- 30_encoding.md R76 and 60_exceptions.md R207: the checks on the first word and their order, a choice of the spec's own
(D13, with D4 and D5). -/
def Obligations.FirstWordChecksInOrder : Prop :=
  ∀ (oc : OpcodeCode) (w : Word) (op : Opcode), opcodeOf oc (opcField w) = some op →
    (8 < w.toNat / 2 ^ 8 % 2 ^ 8 → decodeHead oc w = .error (.illegalRegister .first (r1Field w))) ∧
    (w.toNat / 2 ^ 8 % 2 ^ 8 ≤ 8 → 8 < w.toNat % 2 ^ 8 →
      decodeHead oc w = .error (.illegalRegister .second (r2Field w))) ∧
    (w.toNat / 2 ^ 8 % 2 ^ 8 = 0 → w.toNat % 2 ^ 8 ≤ 8 → op.usesReg1 = true →
      decodeHead oc w = .error (.nullRegisterOperand op)) ∧
    (w.toNat / 2 ^ 8 % 2 ^ 8 ≤ 8 → w.toNat % 2 ^ 8 ≤ 8 → (w.toNat / 2 ^ 8 % 2 ^ 8 ≠ 0 ∨ op.usesReg1 = false) →
      ∃ h, decodeHead oc w = .ok h ∧ h.op = op ∧ (regCode h.r1).toNat = w.toNat / 2 ^ 8 % 2 ^ 8 ∧
        (regCode h.r2).toNat = w.toNat % 2 ^ 8)

/-! ### The step -/

/-- 40_step_cycle.md R112: when the bytes at the pc decode, a step in Running is the instruction's execution. The step adds
nothing around it: the pc's advance is part of `exec`. -/
def Obligations.StepRunsTheDecodedInstruction : Prop :=
  ∀ (s : State) (i : Instr) (rest : List Byte), s.status = .running → Memory.wf s.prog →
    decode s.config.opcodeCode (bytesAtPc s) = .ok (i, rest) → step s = exec i s

/-- 40_step_cycle.md R102, R112, 60_exceptions.md R203 to R207: when the bytes at the pc do not decode, the step takes the
fault of the first check that fails. The order of the checks is the spec's own choice D13. -/
def Obligations.UndecodableBytesFault : Prop :=
  ∀ (s : State) (e : DecodeError), s.status = .running → Memory.wf s.prog →
    decode s.config.opcodeCode (bytesAtPc s) = .error e →
    ∃ t f, step s = .next t ∧ FaultTaken f s t ∧
      (match e with
        | .illegalOpcode opc => f = .illegalOpcode opc ∧ f.code = 2
        | .illegalRegister field v => f = .illegalRegister field v ∧ f.code = 3
        | .nullRegisterOperand op => f = .nullRegisterOperand op ∧ f.code = 4
        | .missingWord k => f = .pcOutOfBounds (s.pc.toNat + k) ∧ f.code = 1)

/-- 40_step_cycle.md R101: the fetch of the first word, in bounds and out of bounds. -/
def Obligations.FetchChecksTheBounds : Prop :=
  ∀ (s : State), s.status = .running →
    (s.nwords ≤ s.pc.toNat → ∃ t, step s = .next t ∧ FaultTaken (.pcOutOfBounds s.pc.toNat) s t) ∧
    (s.pc.toNat < s.nwords → Memory.wf s.prog →
      ∃ w, Memory.readWord s.prog (4 * s.pc.toNat) = some w ∧ readProgWord s s.pc.toNat = some w ∧
        ∀ e, decodeHead s.config.opcodeCode w = .error e →
          ∃ t, step s = .next t ∧ FaultTaken (faultOfDecode s.pc e) s t)

/-- 40_step_cycle.md R105: the fetch of the immediate, in bounds and out of bounds, for every opcode. -/
def Obligations.ImmediateFetchChecksTheBounds : Prop :=
  ∀ (s : State) (w : Word) (h : Head), s.status = .running → Memory.wf s.prog →
    readProgWord s s.pc.toNat = some w → decodeHead s.config.opcodeCode w = .ok h → h.r2 = none →
    (s.nwords ≤ s.pc.toNat + 1 → ∃ t, step s = .next t ∧ FaultTaken (.pcOutOfBounds (s.pc.toNat + 1)) s t) ∧
    (s.pc.toNat + 1 < s.nwords → ∃ n, Memory.readWord s.prog (4 * (s.pc.toNat + 1)) = some n ∧
      step s = exec (.ofParts h.op h.r1 (.imm n)) s)

/-- 40_step_cycle.md R103: a step in Halted writes no state, returns `Ok(false, none)`, and its answer is the same whatever
the memory holds; so it goes on forever, until a load resets to Running. -/
def Obligations.HaltedStepDoesNothing : Prop :=
  ∀ (s : State), s.status = .halted →
    (∃ t, step s = .next t ∧ t.returned = some (.ok false none) ∧ t.status = .halted ∧ SameRegs s t ∧ t.pc = s.pc ∧
      SameFlags s t ∧ SameProgram s t ∧
      ∀ m, ∃ t', step { s with prog := m } = .next t' ∧ t'.returned = t.returned ∧ t'.status = .halted ∧ t'.pc = t.pc) ∧
    (∀ n, ∃ t : State, Host.Core.run Sys2Proof.core (n + 1) s = .next t ∧ t.status = .halted ∧
      t.returned = some (.ok false none)) ∧
    (∀ image : List Byte, image.length % 4 = 0 → (loadProgram image s).2.status = .running)

/-- 40_step_cycle.md R104: a step in Faulted writes no state and returns the same record (the spec's own choice D12). -/
def Obligations.FaultedStepRepeatsItsRecord : Prop :=
  ∀ (s : State) (f : FaultRecord), s.status = .faulted f →
    ∃ t, step s = .next t ∧ t.returned = some (.err f) ∧ t.status = .faulted f ∧ SameRegs s t ∧ t.pc = s.pc ∧
      SameFlags s t ∧ SameProgram s t

/-- 40_step_cycle.md R103, R104: Halted and Faulted are terminal: after any number of steps from one of them the status,
registers, pc, flags and program are as they were. That Faulted is terminal is the spec's own choice D12. -/
def Obligations.StoppedMachineStaysStopped : Prop :=
  ∀ (n : Nat) (s : State), s.status ≠ .running →
    ∃ t : State, Host.Core.run Sys2Proof.core n s = .next t ∧ t.status = s.status ∧ SameRegs s t ∧ t.pc = s.pc ∧
      SameFlags s t ∧ SameProgram s t

/-- 40_step_cycle.md R100, R112: a step always answers, and what it returns to the host is never missing: the model neither
stops nor refuses anywhere. That a fault is a next state is the model's choice (notes/assumptions/4.md). -/
def Obligations.EveryStepAnswersTheHost : Prop :=
  ∀ (s : State), ∃ t r, step s = .next t ∧ t.returned = some r ∧ transact .step s = (.stepped r, t)

/-- 40_step_cycle.md R110, 60_exceptions.md R200, R210: a step that ends in a fault has recorded the pc it started at and
changed nothing else (the spec's own choice D12). -/
def Obligations.FaultingStepIsPrecise : Prop :=
  ∀ (s t : State) (r : FaultRecord), s.status = .running → step s = .next t → t.status = .faulted r →
    r.pc = s.pc ∧ FaultTaken r.fault s t

/-- 40_step_cycle.md R113: the transitions of the sequencer by a step and by a load. Faulted is the spec's own (D12). -/
def Obligations.SequencerTransitions : Prop :=
  ∀ (s : State),
    (s.status = .halted → (transact .step s).1 = .stepped (.ok false none) ∧ (transact .step s).2.status = .halted) ∧
    (∀ f, s.status = .faulted f →
      (transact .step s).1 = .stepped (.err f) ∧ (transact .step s).2.status = .faulted f) ∧
    (s.status = .running → ∀ i, fetchDecode s = .ok i →
      (i.opcode = .hlt → (transact .step s).1 = .stepped (.ok false none) ∧ (transact .step s).2.status = .halted) ∧
      (i.opcode ≠ .hlt →
        (∃ out, (transact .step s).1 = .stepped (.ok true out) ∧ (transact .step s).2.status = .running) ∨
        (∃ f, (transact .step s).1 = .stepped (.err f) ∧ (transact .step s).2.status = .faulted f))) ∧
    (s.status = .running → ∀ e, fetchDecode s = .error e →
      (transact .step s).1 = .stepped (.err ⟨e, s.pc⟩) ∧ (transact .step s).2.status = .faulted ⟨e, s.pc⟩) ∧
    (∀ image, (transact (.loadProgram image) s).1 = .load .ok → (transact (.loadProgram image) s).2.status = .running) ∧
    (∀ image, (transact (.loadProgram image) s).1 ≠ .load .ok → (transact (.loadProgram image) s).2 = s)

/-- 40_step_cycle.md R111: a step that completes returns `Ok(status = Running, output)`, with an event exactly for out. -/
def Obligations.CompletedStepReturnsOk : Prop :=
  ∀ (s t : State) (i : Instr), s.status = .running → fetchDecode s = .ok i → step s = .next t →
    (∀ f, t.status ≠ .faulted f) →
    ∃ out, t.returned = some (.ok (decide (t.status = .running)) out) ∧
      (out.isSome = true ↔ i.opcode = .out) ∧
      (∀ r v, i = .out (some r) v → out = some ⟨readReg s r, srcValue v s⟩) ∧
      (i.opcode = .hlt → t.returned = some (.ok false none))

/-- 70_reset_and_hazards.md R237: a run ends normally only with an hlt, and abnormally only by a fault that the state then
holds; never both. -/
def Obligations.NormalEndIsAHalt : Prop :=
  (∀ s t, EndsNormally s t → t.status = .halted ∧ t.Safe ∧ ∃ i, fetchDecode s = .ok i ∧ i.opcode = .hlt) ∧
  (∀ s t f, EndsAbnormally s t f → t.status = .faulted f ∧ f.pc = s.pc ∧ ¬ EndsNormally s t)

/-! ### Instructions -/

/-- 41_alu.md R130: mov. The spec gives `NullRegisterOperand` to decode (30_encoding.md R72, its own choice D5); that `exec`
of the term with Null in its first field, which the decoder refuses before, takes that fault too is the model's choice
(notes/assumptions/8.md). -/
def Obligations.MovWritesTheOperand : Prop :=
  ∀ (r : Reg) (v : Src) (s : State),
    (∃ t, exec (.mov (some r) v) s = .next t ∧ WroteReg r (srcValue v s).toNat v s t) ∧
    (∃ t, exec (.mov none v) s = .next t ∧ FaultTaken (.nullRegisterOperand .mov) s t) ∧
    (∀ r1, EncodedWith 0x0006 (.mov r1 v)) ∧
    (v = .reg r → ∃ t, exec (.mov (some r) v) s = .next t ∧ SameRegs s t)

/-- 41_alu.md R131: inc wraps and ignores its second operand's value (the spec's own choice D7 for the wrap). -/
def Obligations.IncAddsOneAndWraps : Prop :=
  ∀ (r : Reg) (v : Src) (s : State),
    ∃ t, exec (.inc (some r) v) s = .next t ∧ WroteReg r (((readReg s r).toNat + 1) % 2 ^ 32) v s t

/-- 41_alu.md R132, R133: shl and shr for an amount below 32; shr is logical. -/
def Obligations.ShiftsBelowThirtyTwo : Prop :=
  ∀ (r : Reg) (v : Src) (s : State), (srcValue v s).toNat < 32 →
    (∃ t, exec (.shl (some r) v) s = .next t ∧
      WroteReg r ((readReg s r).toNat * 2 ^ (srcValue v s).toNat % 2 ^ 32) v s t) ∧
    (∃ t, exec (.shr (some r) v) s = .next t ∧
      WroteReg r ((readReg s r).toNat / 2 ^ (srcValue v s).toNat) v s t)

/-- 41_alu.md R132, R133, 60_exceptions.md R208: an amount of 32 or more is `ShiftOutOfRange` (the spec's own choice D9). -/
def Obligations.ShiftsByThirtyTwoOrMoreFault : Prop :=
  ∀ (r : Reg) (v : Src) (s : State), 32 ≤ (srcValue v s).toNat →
    (∃ t, exec (.shl (some r) v) s = .next t ∧ FaultTaken (.shiftOutOfRange (srcValue v s)) s t) ∧
    (∃ t, exec (.shr (some r) v) s = .next t ∧ FaultTaken (.shiftOutOfRange (srcValue v s)) s t)

/-- 41_alu.md R134, R135, R136: add, sub and mul compute the exact result modulo `2^32` and never fault (the spec's own
choice D7). -/
def Obligations.AddSubMulWrap : Prop :=
  ∀ (r : Reg) (v : Src) (s : State),
    (∃ t, exec (.add (some r) v) s = .next t ∧
      WroteReg r (((readReg s r).toNat + (srcValue v s).toNat) % 2 ^ 32) v s t) ∧
    (∃ t, exec (.sub (some r) v) s = .next t ∧
      WroteReg r (((readReg s r).toNat + 2 ^ 32 - (srcValue v s).toNat) % 2 ^ 32) v s t) ∧
    (∃ t, exec (.mul (some r) v) s = .next t ∧
      WroteReg r ((readReg s r).toNat * (srcValue v s).toNat % 2 ^ 32) v s t)

/-- 41_alu.md R137: div by a nonzero divisor gives the quotient rounded toward zero: the `q` with `q * val <= a <
(q + 1) * val`. -/
def Obligations.DivGivesTheQuotient : Prop :=
  ∀ (r : Reg) (v : Src) (s : State), srcValue v s ≠ 0 →
    ∃ t q, exec (.div (some r) v) s = .next t ∧ WroteReg r q v s t ∧
      q * (srcValue v s).toNat ≤ (readReg s r).toNat ∧ (readReg s r).toNat < (q + 1) * (srcValue v s).toNat

/-- 41_alu.md R137, 60_exceptions.md R206: div by zero is `DivideByZero`, whatever the dividend (the spec's own choice
D8). -/
def Obligations.DivByZeroFaults : Prop :=
  ∀ (r : Reg) (v : Src) (s : State), srcValue v s = 0 →
    ∃ t, exec (.div (some r) v) s = .next t ∧ FaultTaken .divideByZero s t

/-- 41_alu.md R138: xor, bit by bit (the spec's own choice D10). -/
def Obligations.XorIsBitwise : Prop :=
  ∀ (r : Reg) (v : Src) (s : State),
    ∃ t d, exec (.xor (some r) v) s = .next t ∧ WroteReg r d v s t ∧
      ∀ k, k < 32 → d.testBit k = ((readReg s r).toNat.testBit k != (srcValue v s).toNat.testBit k)

/-- 42_compare_branch.md R150: cmp writes both flags by the unsigned comparison and nothing else (the reading of the order as
unsigned is the spec's own, D21). -/
def Obligations.CmpSetsBothFlags : Prop :=
  ∀ (r : Reg) (v : Src) (s : State),
    ∃ t, exec (.cmp (some r) v) s = .next t ∧
      t.cmpf.toInt = orderOf (readReg s r).toNat (srcValue v s).toNat ∧
      (t.zf = true ↔ readReg s r = srcValue v s) ∧
      SameRegs s t ∧ t.status = s.status ∧ SameProgram s t ∧ Advanced v s t ∧ t.returned = some (.ok s.isRunning none)

/-- 42_compare_branch.md R151: jmp goes to `val`, in either form and whatever its first field holds; a target past the end
faults at the next step, not in this one. -/
def Obligations.JmpGoesToTheOperand : Prop :=
  ∀ (r1 : Option Reg) (v : Src) (s : State),
    EncodedWith 0x0001 (.jmp r1 v) ∧
    ∃ t, exec (.jmp r1 v) s = .next t ∧ Branched True v s t ∧
      (t.status = .running → t.nwords ≤ (srcValue v s).toNat →
        ∃ u, step t = .next u ∧ FaultTaken (.pcOutOfBounds (srcValue v s).toNat) t u)

/-- 42_compare_branch.md R152, R153: je and jn, in either form and whatever the first field holds. -/
def Obligations.EqualityBranches : Prop :=
  ∀ (r1 : Option Reg) (v : Src) (s : State),
    EncodedWith 0x000B (.je r1 v) ∧ EncodedWith 0x000C (.jn r1 v) ∧
    (∃ t, exec (.je r1 v) s = .next t ∧ Branched (s.cmpf.toInt = 0) v s t) ∧
    (∃ t, exec (.jn r1 v) s = .next t ∧ Branched (s.cmpf.toInt ≠ 0) v s t)

/-- 42_compare_branch.md R154, R155: jg and jl, in either form and whatever the first field holds. -/
def Obligations.OrderBranches : Prop :=
  ∀ (r1 : Option Reg) (v : Src) (s : State),
    EncodedWith 0x0015 (.jg r1 v) ∧ EncodedWith 0x0016 (.jl r1 v) ∧
    (∃ t, exec (.jg r1 v) s = .next t ∧ Branched (s.cmpf.toInt > 0) v s t) ∧
    (∃ t, exec (.jl r1 v) s = .next t ∧ Branched (s.cmpf.toInt < 0) v s t)

/-- 42_compare_branch.md R156: jz, in either form and whatever the first field holds. -/
def Obligations.ZeroBranch : Prop :=
  ∀ (r1 : Option Reg) (v : Src) (s : State),
    EncodedWith 0x0014 (.jz r1 v) ∧
    ∃ t, exec (.jz r1 v) s = .next t ∧ Branched (s.zf = true) v s t

/-- 42_compare_branch.md R150, R154, R155: an unsigned comparison followed by a branch on the order it found: jl is taken
exactly when reg1 was below `val`, jg exactly when it was above, je exactly when they were equal, jn exactly when not, and
jz as je. -/
def Obligations.CompareThenBranch : Prop :=
  ∀ (r : Reg) (v w : Src) (r1 : Option Reg) (s t : State), exec (.cmp (some r) v) s = .next t →
    (∃ u, exec (.jl r1 w) t = .next u ∧ Branched ((readReg s r).toNat < (srcValue v s).toNat) w t u) ∧
    (∃ u, exec (.jg r1 w) t = .next u ∧ Branched ((srcValue v s).toNat < (readReg s r).toNat) w t u) ∧
    (∃ u, exec (.je r1 w) t = .next u ∧ Branched (readReg s r = srcValue v s) w t u) ∧
    (∃ u, exec (.jn r1 w) t = .next u ∧ Branched (readReg s r ≠ srcValue v s) w t u) ∧
    (∃ u, exec (.jz r1 w) t = .next u ∧ Branched (readReg s r = srcValue v s) w t u)

/-- 43_system_io.md R170: nop only advances the pc, in either form and whatever its fields hold. -/
def Obligations.NopOnlyAdvances : Prop :=
  ∀ (r1 : Option Reg) (v : Src) (s : State),
    EncodedWith 0x0000 (.nop r1 v) ∧ ∃ t, exec (.nop r1 v) s = .next t ∧ OnlyAdvanced v s t

/-- 43_system_io.md R171: hlt enters Halted, advances the pc and returns `Ok(false, none)`. -/
def Obligations.HltHalts : Prop :=
  ∀ (r1 : Option Reg) (v : Src) (s : State),
    EncodedWith 0x0002 (.hlt r1 v) ∧
    ∃ t, exec (.hlt r1 v) s = .next t ∧ t.status = .halted ∧ t.returned = some (.ok false none) ∧ Advanced v s t ∧
      SameRegs s t ∧ SameFlags s t ∧ SameProgram s t

/-- 43_system_io.md R172: out emits the event with the port from reg1 and the datum `val`, and writes no register, flag or
memory. The spec gives `NullRegisterOperand` to decode (30_encoding.md R72, its own choice D5); that `exec` of the term with
Null in its first field, which the decoder refuses before, takes that fault too is the model's choice
(notes/assumptions/8.md). -/
def Obligations.OutEmitsThePortAndDatum : Prop :=
  ∀ (r : Reg) (v : Src) (s : State),
    (∀ r1, EncodedWith 0x0011 (.out r1 v)) ∧
    (∃ t, exec (.out (some r) v) s = .next t ∧
      t.returned = some (.ok s.isRunning (some ⟨readReg s r, srcValue v s⟩)) ∧
      SameRegs s t ∧ SameFlags s t ∧ t.status = s.status ∧ SameProgram s t ∧ Advanced v s t) ∧
    (∃ t, exec (.out none v) s = .next t ∧ FaultTaken (.nullRegisterOperand .out) s t)

/-- 44_undefined_ops.md R180 with `UNIMPLEMENTED_OPS = nop`: mmov, mset, in, push and pop behave as nop. The parameter is the
spec's own opening (D11). -/
def Obligations.UndefinedOpcodesAsNop : Prop :=
  ∀ (op : Opcode) (r1 : Option Reg) (v : Src) (s : State), isUndefined op → s.config.unimplementedOps = .nop →
    ∃ t, exec (.ofParts op r1 v) s = .next t ∧ exec (.nop r1 v) s = .next t ∧ OnlyAdvanced v s t

/-- 44_undefined_ops.md R180 with `UNIMPLEMENTED_OPS = fault`, 60_exceptions.md R209: the five take `UnimplementedOpcode`. -/
def Obligations.UndefinedOpcodesFault : Prop :=
  ∀ (op : Opcode) (r1 : Option Reg) (v : Src) (s : State), isUndefined op → s.config.unimplementedOps = .fault →
    ∃ t, exec (.ofParts op r1 v) s = .next t ∧ FaultTaken (.unimplementedOpcode op) s t

/-- 30_encoding.md R72, 60_exceptions.md R205: every opcode that uses reg1 takes `NullRegisterOperand` when its first field
is Null (the spec's own choice D5). That `exec` says so too, of a term the decoder refuses before, is the model's choice
(notes/assumptions/8.md). -/
def Obligations.NullFirstOperandFaults : Prop :=
  ∀ (op : Opcode) (v : Src) (s : State), op.usesReg1 = true →
    (Instr.ofParts op none v).wf = false ∧
    ∃ t, exec (.ofParts op none v) s = .next t ∧ FaultTaken (.nullRegisterOperand op) s t

/-! ### The whole machine -/

/-- 10_state.md R21, R23: a register that an instruction changed is the one its first field names, and the instruction is
mov, inc, shl, shr, add, sub, mul, div or xor. -/
def Obligations.OnlyAluInstructionsWriteRegisters : Prop :=
  ∀ (i : Instr) (s t : State) (q : Reg), exec i s = .next t → readReg t q ≠ readReg s q →
    i.r1 = some q ∧ writesReg1 i.opcode

/-- 10_state.md R25, R26 (the reading D20): only cmp changes a flag, and after any cmp the two flags agree. -/
def Obligations.OnlyCmpWritesFlags : Prop :=
  (∀ (i : Instr) (s t : State), exec i s = .next t → i.opcode ≠ .cmp → SameFlags s t) ∧
  (∀ (r : Reg) (v : Src) (s t : State), exec (.cmp (some r) v) s = .next t → (t.zf = true ↔ t.cmpf.toInt = 0))

/-- 10_state.md R25, R26: the comparison flag is read only by je, jn, jg and jl, and the zero flag only by jz: on every other
instruction two states that differ only there go on to states that differ at most there. -/
def Obligations.FlagsAreReadOnlyByBranches : Prop :=
  ∀ (i : Instr) (s t : State) (c : CmpFlag) (z : Bool), exec i s = .next t →
    (i.opcode ∉ [Opcode.je, .jn, .jg, .jl] →
      exec i { s with cmpf := c } = .next { t with cmpf := if i.opcode = .cmp ∧ i.r1 ≠ none then t.cmpf else c }) ∧
    (i.opcode ≠ .jz →
      exec i { s with zf := z } = .next { t with zf := if i.opcode = .cmp ∧ i.r1 ≠ none then t.zf else z })

/-- 40_step_cycle.md R107, R109, 42_compare_branch.md R157: after an instruction that raised no fault the pc is past it,
except after a jump or branch, where it may be `val` itself. The width of the sum is the spec's own choice D15. -/
def Obligations.PcAdvancesOrBranches : Prop :=
  ∀ (i : Instr) (s t : State), exec i s = .next t → t.Safe →
    Advanced i.val s t ∨ (isBranch i.opcode ∧ t.pc = srcValue i.val s)

/-- 20_memory.md R40, R48, R51, 10_state.md R27: no step and no number of steps writes the program buffer, and none changes
the parameters. -/
def Obligations.StepsNeverWriteTheProgram : Prop :=
  ∀ (n : Nat) (s : State), ∃ t : State, Host.Core.run Sys2Proof.core n s = .next t ∧ SameProgram s t ∧ t.nwords = s.nwords

/-- 30_encoding.md R73 (the spec's own choice D6): a first field that the opcode does not use changes nothing, and an unused
second operand changes nothing but the length. -/
def Obligations.UnusedFieldsAreIgnored : Prop :=
  (∀ (op : Opcode) (r1 r1' : Option Reg) (v : Src) (s : State), op.usesReg1 = false →
    exec (.ofParts op r1 v) s = exec (.ofParts op r1' v) s) ∧
  (∀ (op : Opcode) (r1 : Option Reg) (v v' : Src) (s : State), ignoresVal op → srcLen v = srcLen v' →
    exec (.ofParts op r1 v) s = exec (.ofParts op r1 v') s)

/-- 30_encoding.md R68: the semantics of an instruction is the same under any opcode codes. -/
def Obligations.SemanticsIndependentOfCodes : Prop :=
  ∀ (i : Instr) (s t : State) (oc : OpcodeCode), exec i s = .next t →
    exec i { s with config := { s.config with opcodeCode := oc } } =
      .next { t with config := { t.config with opcodeCode := oc } }

/-- 30_encoding.md R66, R68: two machines that differ only in their injective opcode codes, at programs in which the same
well-formed instruction is encoded at the pc, each under its own codes, take the same step: equal registers, pc, flags,
status and result. -/
def Obligations.RecodedProgramTakesTheSameStep : Prop :=
  ∀ (s s' t : State) (i : Instr) (rest rest' : List Byte),
    s.config.wf → s'.config.wf → Memory.wf s.prog → Memory.wf s'.prog → i.wf = true →
    s' = { s with prog := s'.prog, config := { s.config with opcodeCode := s'.config.opcodeCode } } →
    s.status = .running →
    bytesAtPc s = encodeBytes s.config.opcodeCode i ++ rest →
    bytesAtPc s' = encodeBytes s'.config.opcodeCode i ++ rest' →
    step s = .next t → step s' = .next { t with prog := s'.prog, config := s'.config }

/-- 10_state.md R31: the result of a step is not retained by the machine: whatever transactions the host makes, their answers
and every piece of architectural state after them are the same whatever an earlier step returned (`returned` is the model's
own field, notes/assumptions/3.md). -/
def Obligations.EarlierResultsAreNotRead : Prop :=
  ∀ (ts : List Transaction) (s : State) (r : Option StepResult),
    (transactAll ts { s with returned := r }).1 = (transactAll ts s).1 ∧
    { (transactAll ts { s with returned := r }).2 with returned := none } =
      { (transactAll ts s).2 with returned := none }

/-- The state before the first load meets the invariant. -/
def Obligations.ResetMeetsTheInvariant : Prop :=
  State.reset.Inv

/-- Every step keeps the invariant `State.Inv`: injective codes, the buffer's canonical form, a set zero flag only with an
equal comparison flag, and in Faulted the pc at the faulting instruction (30_encoding.md R66, 20_memory.md R40 and R44,
10_state.md R26, 40_step_cycle.md R110). -/
def Obligations.StepKeepsTheInvariant : Prop :=
  ∀ (s t : State), s.Inv → step s = .next t → t.Inv

/-- Whatever transactions a host makes, in whatever order, the invariant is kept (70_reset_and_hazards.md R230, R238). -/
def Obligations.HostTransactionsKeepTheInvariant : Prop :=
  ∀ (ts : List Transaction) (s : State), s.Inv → (transactAll ts s).2.Inv

/-- A recorded fault stays explained by the state that holds it: put back to Running, the machine raises the same record
again, after any transactions of the host (40_step_cycle.md R104, R110). -/
def Obligations.RecordedFaultsStayExplained : Prop :=
  ∀ (ts : List Transaction) (s : State), s.FaultExplained → (transactAll ts s).2.FaultExplained
end

