-- ==== Sys2Proof/Laws/Codec.lean ====
section
/-! SUPPORT. The decoder and encoder, piece by piece: byte order, fields, code tables, and the first word. -/

namespace Sys2Proof

/-! ### Words, bytes and fields -/

theorem wordOfBytes_bytesOfWord (w : Word) :
    wordOfBytes (w.extractLsb' 0 8) (w.extractLsb' 8 8) (w.extractLsb' 16 8) (w.extractLsb' 24 8) = w := by
  apply BitVec.eq_of_getLsbD_eq
  intro i hi
  simp only [wordOfBytes, BitVec.getLsbD_append, BitVec.getLsbD_extractLsb']
  interval_cases i <;> simp

theorem bytesOfWord_wordOfBytes (b0 b1 b2 b3 : Byte) : bytesOfWord (wordOfBytes b0 b1 b2 b3) = [b0, b1, b2, b3] := by
  simp only [bytesOfWord, wordOfBytes, List.cons.injEq, and_true]
  refine ⟨?_, ?_, ?_, ?_⟩ <;>
  · apply BitVec.eq_of_getLsbD_eq
    intro i hi
    simp only [BitVec.getLsbD_append, BitVec.getLsbD_extractLsb']
    interval_cases i <;> simp

/-- The byte formula of 20_memory.md R42. -/
theorem wordOfBytes_toNat (b0 b1 b2 b3 : Byte) :
    (wordOfBytes b0 b1 b2 b3).toNat = b0.toNat + b1.toNat * 2 ^ 8 + b2.toNat * 2 ^ 16 + b3.toNat * 2 ^ 24 := by
  have h0 := b0.isLt
  have h1 := b1.isLt
  have h2 := b2.isLt
  simp only [wordOfBytes, BitVec.toNat_append]
  rw [← Nat.shiftLeft_add_eq_or_of_lt (by omega), ← Nat.shiftLeft_add_eq_or_of_lt (by omega),
    ← Nat.shiftLeft_add_eq_or_of_lt (by omega)]
  simp only [Nat.shiftLeft_eq]
  omega

/-- The first word as a number (30_encoding.md R61). -/
theorem fieldsWord_toNat (opc : BitVec 16) (r1 r2 : Byte) :
    (fieldsWord opc r1 r2).toNat = opc.toNat * 2 ^ 16 + r1.toNat * 2 ^ 8 + r2.toNat := by
  have h1 := r1.isLt
  have h2 := r2.isLt
  simp only [fieldsWord, BitVec.toNat_append]
  rw [← Nat.shiftLeft_add_eq_or_of_lt (by omega), ← Nat.shiftLeft_add_eq_or_of_lt (by omega)]
  simp only [Nat.shiftLeft_eq]
  omega

theorem opcField_toNat (w : Word) : (opcField w).toNat = w.toNat / 2 ^ 16 := by
  have := w.isLt
  simp only [opcField, BitVec.extractLsb'_toNat, Nat.shiftRight_eq_div_pow]
  omega

theorem r1Field_toNat (w : Word) : (r1Field w).toNat = w.toNat / 2 ^ 8 % 2 ^ 8 := by
  simp only [r1Field, BitVec.extractLsb'_toNat, Nat.shiftRight_eq_div_pow]

theorem r2Field_toNat (w : Word) : (r2Field w).toNat = w.toNat % 2 ^ 8 := by
  simp [r2Field, BitVec.extractLsb'_toNat]

@[simp] theorem opcField_fieldsWord (opc : BitVec 16) (r1 r2 : Byte) : opcField (fieldsWord opc r1 r2) = opc := by
  have h1 := r1.isLt
  have h2 := r2.isLt
  apply BitVec.eq_of_toNat_eq
  rw [opcField_toNat, fieldsWord_toNat]
  omega

@[simp] theorem r1Field_fieldsWord (opc : BitVec 16) (r1 r2 : Byte) : r1Field (fieldsWord opc r1 r2) = r1 := by
  have h1 := r1.isLt
  have h2 := r2.isLt
  apply BitVec.eq_of_toNat_eq
  rw [r1Field_toNat, fieldsWord_toNat]
  omega

@[simp] theorem r2Field_fieldsWord (opc : BitVec 16) (r1 r2 : Byte) : r2Field (fieldsWord opc r1 r2) = r2 := by
  have h2 := r2.isLt
  apply BitVec.eq_of_toNat_eq
  rw [r2Field_toNat, fieldsWord_toNat]
  omega

/-- A word is its three fields. -/
theorem fieldsWord_fields (w : Word) : fieldsWord (opcField w) (r1Field w) (r2Field w) = w := by
  apply BitVec.eq_of_toNat_eq
  rw [fieldsWord_toNat, opcField_toNat, r1Field_toNat, r2Field_toNat]
  omega

@[simp] theorem takeWord_bytesOfWord (w : Word) (rest : List Byte) :
    takeWord (bytesOfWord w ++ rest) = some (w, rest) := by
  simp [bytesOfWord, takeWord, wordOfBytes_bytesOfWord]

theorem takeWord_eq_some {bytes rest : List Byte} {w : Word} (h : takeWord bytes = some (w, rest)) :
    bytes = bytesOfWord w ++ rest := by
  match bytes, h with
  | b0 :: b1 :: b2 :: b3 :: tail, h =>
    simp only [takeWord, Option.some.injEq, Prod.mk.injEq] at h
    obtain ⟨rfl, rfl⟩ := h
    rw [bytesOfWord_wordOfBytes]
    rfl

/-! ### Code tables -/

theorem Opcode.mem_all (op : Opcode) : op ∈ Opcode.all := by
  cases op <;> decide

theorem Opcode.number_injective {o p : Opcode} (h : o.number = p.number) : o = p := by
  have key : ∀ q ∈ Opcode.all, ∀ r ∈ Opcode.all, q.number = r.number → q = r := by decide
  exact key o o.mem_all p p.mem_all h

theorem codeOf_injective {oc : OpcodeCode} (hoc : oc.Injective) {o p : Opcode} (h : codeOf oc o = codeOf oc p) :
    o = p :=
  Opcode.number_injective (hoc _ _ h)

theorem codeOf_of_opcodeOf {oc : OpcodeCode} {opc : BitVec 16} {op : Opcode} (h : opcodeOf oc opc = some op) :
    codeOf oc op = opc := by
  simpa using List.find?_some h

theorem opcodeOf_codeOf {oc : OpcodeCode} (hoc : oc.Injective) (op : Opcode) :
    opcodeOf oc (codeOf oc op) = some op := by
  cases h : opcodeOf oc (codeOf oc op) with
  | none => exact absurd (List.find?_eq_none.1 h op op.mem_all) (by simp)
  | some p => rw [codeOf_injective hoc (codeOf_of_opcodeOf h)]

theorem opcodeOf_eq_none {oc : OpcodeCode} {opc : BitVec 16} :
    opcodeOf oc opc = none ↔ ∀ op, codeOf oc op ≠ opc := by
  simp only [opcodeOf, List.find?_eq_none, beq_iff_eq]
  exact ⟨fun h op => h op op.mem_all, fun h op _ => h op⟩

/-- The default code of an opcode is its place in the order of 30_encoding.md R65. -/
theorem codeOf_default (op : Opcode) : (codeOf OpcodeCode.default op).toNat = op.number.val := by
  cases op <;> rfl

@[simp] theorem decodeReg_regCode (f : RegField) (r : Option Reg) : decodeReg f (regCode r) = .ok r := by
  rcases r with _ | r
  · rfl
  · cases r <;> rfl

theorem regCode_of_decodeReg {f : RegField} {v : Byte} {r : Option Reg} (h : decodeReg f v = .ok r) :
    regCode r = v := by
  apply BitVec.eq_of_toNat_eq
  unfold decodeReg at h
  split at h <;> first | (cases h; simp [regCode, *]) | cases h

/-- A register field decodes exactly when it holds at most 8 (30_encoding.md R70). -/
theorem decodeReg_illegal {f : RegField} {v : Byte} (h : 8 < v.toNat) : decodeReg f v = .error (.illegalRegister f v) := by
  unfold decodeReg
  split <;> first | rfl | omega

theorem decodeReg_legal {f : RegField} {v : Byte} (h : v.toNat ≤ 8) : ∃ r, decodeReg f v = .ok r := by
  unfold decodeReg
  split <;> first | exact ⟨_, rfl⟩ | skip
  rename_i h0 h1 h2 h3 h4 h5 h6 h7 h8
  exact absurd h (by simp_all; omega)

theorem decodeReg_error {f : RegField} {v : Byte} {e : DecodeError} (h : decodeReg f v = .error e) :
    e = .illegalRegister f v := by
  unfold decodeReg at h
  split at h <;> cases h
  rfl

@[simp] theorem regCode_eq_zero {r : Option Reg} : regCode r = 0 ↔ r = none := by
  rcases r with _ | r
  · simp [regCode]
  · cases r <;> simp [regCode]

/-! ### Instructions and their parts -/

@[simp] theorem ofParts_opcode (op : Opcode) (r1 : Option Reg) (v : Src) : (Instr.ofParts op r1 v).opcode = op := by
  cases op <;> rfl

@[simp] theorem ofParts_r1 (op : Opcode) (r1 : Option Reg) (v : Src) : (Instr.ofParts op r1 v).r1 = r1 := by
  cases op <;> rfl

@[simp] theorem ofParts_val (op : Opcode) (r1 : Option Reg) (v : Src) : (Instr.ofParts op r1 v).val = v := by
  cases op <;> rfl

@[simp] theorem ofParts_parts (i : Instr) : Instr.ofParts i.opcode i.r1 i.val = i := by
  cases i <;> rfl

/-! ### The first word -/

/-- A first word that passes every check: its fields are the codes of what was decoded, and the null check holds
(30_encoding.md R76). -/
theorem decodeHead_ok {oc : OpcodeCode} {w : Word} {h : Head} (hd : decodeHead oc w = .ok h) :
    w = fieldsWord (codeOf oc h.op) (regCode h.r1) (regCode h.r2) ∧ (h.op.usesReg1 = true → h.r1 ≠ none) := by
  unfold decodeHead at hd
  split at hd
  · cases hd
  rename_i op hop
  split at hd
  · cases hd
  rename_i r1 hr1
  split at hd
  · cases hd
  rename_i r2 hr2
  split at hd
  · cases hd
  rename_i hnull
  cases hd
  refine ⟨?_, ?_⟩
  · rw [codeOf_of_opcodeOf hop, regCode_of_decodeReg hr1, regCode_of_decodeReg hr2, fieldsWord_fields]
  · intro hu hn
    exact hnull (by simpa using And.intro (show op.usesReg1 = true from hu) (show r1 = none from hn))

/-- A first word built from an opcode's code and two register fields decodes to them, unless the null check refuses it
(30_encoding.md R76). -/
theorem decodeHead_fieldsWord {oc : OpcodeCode} (hoc : oc.Injective) {op : Opcode} {r1 r2 : Option Reg}
    (hu : op.usesReg1 = true → r1 ≠ none) :
    decodeHead oc (fieldsWord (codeOf oc op) (regCode r1) (regCode r2)) = .ok ⟨op, r1, r2⟩ := by
  have : (op.usesReg1 && r1.isNone) = false := by
    cases hop : op.usesReg1
    · rfl
    · simpa using Option.ne_none_iff_isSome.1 (hu hop)
  simp [decodeHead, opcodeOf_codeOf hoc, this]

theorem wf_iff {i : Instr} : i.wf = true ↔ (i.opcode.usesReg1 = true → i.r1 ≠ none) := by
  unfold Instr.wf
  cases i.opcode.usesReg1 <;> cases i.r1 <;> simp

/-- The first word's rejections are the first three of `DecodeError`: no word is missing yet (30_encoding.md R76). -/
theorem decodeHead_error_ne_missing {oc : OpcodeCode} {w : Word} {e : DecodeError} (h : decodeHead oc w = .error e)
    (k : Nat) : e ≠ .missingWord k := by
  rintro rfl
  unfold decodeHead at h
  repeat' split at h
  all_goals
    cases h
    try exact absurd (decodeReg_error ‹_›) (by simp)

end Sys2Proof
end

