-- ==== Sys2Proof/Laws/Memory.lean ====
section
/-! SUPPORT. The program buffer: every operation that makes one makes it in canonical form, a buffer in canonical form is the
image of its bytes, and what a read of a byte and of a word gives (20_memory.md R40 to R46). -/

namespace Sys2Proof.Machine

@[simp] theorem ofImage_length (image : List Byte) : (Memory.ofImage image).length = image.length := by
  simp [Memory.ofImage]

@[simp] theorem ofImage_bytes (image : List Byte) : (Memory.ofImage image).bytes = image := by
  simp [Memory.ofImage, Memory.bytes, List.map_snd_zip]

theorem ofImage_addresses (image : List Byte) : (Memory.ofImage image).map Prod.fst = List.range image.length := by
  simp [Memory.ofImage, List.map_fst_zip]

/-- Installing an image of whole words gives a buffer in canonical form. -/
theorem ofImage_wf {image : List Byte} (h : image.length % 4 = 0) : Memory.wf (Memory.ofImage image) :=
  ⟨by rw [ofImage_addresses, ofImage_length], by rwa [ofImage_length]⟩

theorem bytes_length (m : Memory) : m.bytes.length = m.length := by
  simp [Memory.bytes]

/-- A buffer in canonical form is the image of its bytes: equal contents are equal data. -/
theorem eq_ofImage_of_wf {m : Memory} (h : Memory.wf m) : m = Memory.ofImage m.bytes := by
  unfold Memory.ofImage
  rw [bytes_length, ← h.1]
  exact (List.zip_of_prod (xs := m) rfl rfl)

/-- A byte of a buffer numbered from `k` on. -/
theorem read_zip_range' (image : List Byte) (k a : Nat) :
    Memory.read ((List.range' k image.length).zip image) a = if k ≤ a then image[a - k]? else none := by
  induction image generalizing k with
  | nil => simp [Memory.read]
  | cons b image ih =>
    simp only [List.length_cons, List.range'_succ, List.zip_cons_cons, Memory.read, ih]
    by_cases hk : k = a
    · simp [hk]
    · by_cases hle : k ≤ a
      · have h1 : k + 1 ≤ a := by omega
        have h2 : a - k = a - (k + 1) + 1 := by omega
        simp [hk, hle, h1, h2]
      · have h1 : ¬ k + 1 ≤ a := by omega
        simp [hk, hle, h1]

/-- The byte at an offset of an installed image (20_memory.md R46). -/
@[simp] theorem read_ofImage (image : List Byte) (a : Nat) : Memory.read (Memory.ofImage image) a = image[a]? := by
  have := read_zip_range' image 0 a
  simpa [Memory.ofImage, List.range_eq_range'] using this

/-- The byte at an offset of a buffer in canonical form. -/
theorem read_of_wf {m : Memory} (h : Memory.wf m) (a : Nat) : Memory.read m a = m.bytes[a]? := by
  conv_lhs => rw [eq_ofImage_of_wf h]
  exact read_ofImage m.bytes a

/-- No byte lies past the end of a buffer in canonical form. -/
theorem read_past_end {m : Memory} (h : Memory.wf m) {a : Nat} (ha : m.length ≤ a) : Memory.read m a = none := by
  rw [read_of_wf h, List.getElem?_eq_none (by rwa [bytes_length])]

/-- A word of a buffer in canonical form is the first word of its bytes from there on. -/
theorem readWord_of_wf {m : Memory} (h : Memory.wf m) (a : Nat) :
    Memory.readWord m a = (takeWord (m.bytes.drop a)).map Prod.fst := by
  have hd : ∀ k, m.bytes[a + k]? = (m.bytes.drop a)[k]? := fun k => by simp [List.getElem?_drop]
  simp only [Memory.readWord, read_of_wf h]
  rw [show m.bytes[a]? = (m.bytes.drop a)[0]? by simp, hd 1, hd 2, hd 3]
  generalize m.bytes.drop a = l
  match l with
  | [] => rfl
  | [_] => rfl
  | [_, _] => rfl
  | [_, _, _] => rfl
  | _ :: _ :: _ :: _ :: _ => simp [takeWord]

theorem takeWord_isSome_iff {bytes : List Byte} : (takeWord bytes).isSome = true ↔ 4 ≤ bytes.length := by
  match bytes with
  | [] => simp [takeWord]
  | [_] => simp [takeWord]
  | [_, _] => simp [takeWord]
  | [_, _, _] => simp [takeWord]
  | _ :: _ :: _ :: _ :: _ => simp [takeWord]

theorem takeWord_rest {bytes rest : List Byte} {w : Word} (h : takeWord bytes = some (w, rest)) :
    rest = bytes.drop 4 := by
  rw [takeWord_eq_some h]
  rfl

/-- The word at an index, for a buffer in canonical form: the bounds check and the read agree with the bytes from that
word's address on (20_memory.md R43, R44). -/
theorem readProgWord_of_wf {s : State} (h : Memory.wf s.prog) (i : Nat) :
    readProgWord s i = (takeWord (s.prog.bytes.drop (wordAddr i))).map Prod.fst := by
  unfold readProgWord
  split
  · exact readWord_of_wf h _
  · rename_i hi
    have hlen : ¬ 4 ≤ (s.prog.bytes.drop (wordAddr i)).length := by
      have := h.2
      simp only [State.nwords, wordAddr, List.length_drop, bytes_length] at *
      omega
    rw [← takeWord_isSome_iff, Bool.not_eq_true, Option.isSome_eq_false_iff, Option.isNone_iff_eq_none] at hlen
    simp [hlen]

/-- A word index below `nwords` can be read (20_memory.md R47). -/
theorem readProgWord_in_bounds {s : State} (h : Memory.wf s.prog) {i : Nat} (hi : i < s.nwords) :
    ∃ w, readProgWord s i = some w := by
  rw [readProgWord_of_wf h]
  have : (takeWord (s.prog.bytes.drop (wordAddr i))).isSome = true := by
    rw [takeWord_isSome_iff]
    simp only [State.nwords, wordAddr, List.length_drop, bytes_length] at *
    omega
  obtain ⟨p, hp⟩ := Option.isSome_iff_exists.1 this
  exact ⟨p.1, by rw [hp]; rfl⟩

theorem readProgWord_out_of_bounds {s : State} {i : Nat} (hi : s.nwords ≤ i) : readProgWord s i = none := by
  simp [readProgWord, Nat.not_lt.2 hi]

/-! ### load_program and the host's placing of a word -/

theorem loadProgram_ok {image : List Byte} (h : image.length % 4 = 0) (s : State) :
    loadProgram image s = (.ok, { s with
      prog := Memory.ofImage image, x := Vector.replicate 8 0, pc := 0, cmpf := .equal, zf := false,
      status := .running, returned := none }) := by
  simp [loadProgram, imageWf, h]

theorem loadProgram_malformed {image : List Byte} (h : image.length % 4 ≠ 0) (s : State) :
    loadProgram image s = (.malformed image.length, s) := by
  simp [loadProgram, imageWf, h]

theorem loadProgram_wf {image : List Byte} {s : State} (h : Memory.wf s.prog) :
    Memory.wf (loadProgram image s).2.prog := by
  by_cases hi : image.length % 4 = 0
  · rw [loadProgram_ok hi]; exact ofImage_wf hi
  · rwa [loadProgram_malformed hi]

/-- Placing whole words at the pc keeps the canonical form. -/
theorem placeAtPc_wf {bytes : List Byte} {s : State} (h : Memory.wf s.prog) (hb : bytes.length % 4 = 0) :
    Memory.wf (placeAtPc bytes s).prog := by
  apply ofImage_wf
  have h4 := h.2
  simp only [wordAddr, List.length_append, List.length_take, List.length_replicate, List.length_drop, bytes_length]
  omega

end Sys2Proof.Machine
end

