-- ==== Sys2Proof/Laws/State.lean ====
section
/-! SUPPORT. One lemma per field and register read for each named update of the state. -/

namespace Sys2Proof.Machine

/-- Distinct registers live in distinct slots (10_state.md R20). -/
theorem slot_injective {q r : Reg} (h : q.slot = r.slot) : q = r := by
  cases q <;> cases r <;> first | rfl | exact absurd h (by decide)

/-! ### writeReg -/

@[simp] theorem readReg_writeReg_self (r : Reg) (d : Word) (s : State) : readReg (writeReg r d s) r = d := by
  simp [readReg, writeReg]

theorem readReg_writeReg_ne {q r : Reg} (h : q ≠ r) (d : Word) (s : State) :
    readReg (writeReg r d s) q = readReg s q := by
  have : r.slot.val ≠ q.slot.val := fun e => h (slot_injective (Fin.ext e.symm))
  simp [readReg, writeReg, this]

@[simp] theorem writeReg_pc (r : Reg) (d : Word) (s : State) : (writeReg r d s).pc = s.pc := rfl
@[simp] theorem writeReg_cmpf (r : Reg) (d : Word) (s : State) : (writeReg r d s).cmpf = s.cmpf := rfl
@[simp] theorem writeReg_zf (r : Reg) (d : Word) (s : State) : (writeReg r d s).zf = s.zf := rfl
@[simp] theorem writeReg_status (r : Reg) (d : Word) (s : State) : (writeReg r d s).status = s.status := rfl
@[simp] theorem writeReg_prog (r : Reg) (d : Word) (s : State) : (writeReg r d s).prog = s.prog := rfl
@[simp] theorem writeReg_config (r : Reg) (d : Word) (s : State) : (writeReg r d s).config = s.config := rfl
@[simp] theorem writeReg_returned (r : Reg) (d : Word) (s : State) : (writeReg r d s).returned = s.returned := rfl
@[simp] theorem writeReg_isRunning (r : Reg) (d : Word) (s : State) : (writeReg r d s).isRunning = s.isRunning := rfl

/-! ### setFlags -/

@[simp] theorem setFlags_x (c : CmpFlag) (z : Bool) (s : State) : (setFlags c z s).x = s.x := rfl
@[simp] theorem setFlags_pc (c : CmpFlag) (z : Bool) (s : State) : (setFlags c z s).pc = s.pc := rfl
@[simp] theorem setFlags_cmpf (c : CmpFlag) (z : Bool) (s : State) : (setFlags c z s).cmpf = c := rfl
@[simp] theorem setFlags_zf (c : CmpFlag) (z : Bool) (s : State) : (setFlags c z s).zf = z := rfl
@[simp] theorem setFlags_status (c : CmpFlag) (z : Bool) (s : State) : (setFlags c z s).status = s.status := rfl
@[simp] theorem setFlags_prog (c : CmpFlag) (z : Bool) (s : State) : (setFlags c z s).prog = s.prog := rfl
@[simp] theorem setFlags_config (c : CmpFlag) (z : Bool) (s : State) : (setFlags c z s).config = s.config := rfl
@[simp] theorem setFlags_returned (c : CmpFlag) (z : Bool) (s : State) : (setFlags c z s).returned = s.returned := rfl
@[simp] theorem setFlags_isRunning (c : CmpFlag) (z : Bool) (s : State) : (setFlags c z s).isRunning = s.isRunning := rfl
@[simp] theorem readReg_setFlags (c : CmpFlag) (z : Bool) (s : State) (q : Reg) :
    readReg (setFlags c z s) q = readReg s q := rfl

/-! ### retired -/

@[simp] theorem retired_x (p : Word) (o : Option OutputEvent) (s : State) : (retired p o s).x = s.x := rfl
@[simp] theorem retired_pc (p : Word) (o : Option OutputEvent) (s : State) : (retired p o s).pc = p := rfl
@[simp] theorem retired_cmpf (p : Word) (o : Option OutputEvent) (s : State) : (retired p o s).cmpf = s.cmpf := rfl
@[simp] theorem retired_zf (p : Word) (o : Option OutputEvent) (s : State) : (retired p o s).zf = s.zf := rfl
@[simp] theorem retired_status (p : Word) (o : Option OutputEvent) (s : State) : (retired p o s).status = s.status := rfl
@[simp] theorem retired_prog (p : Word) (o : Option OutputEvent) (s : State) : (retired p o s).prog = s.prog := rfl
@[simp] theorem retired_config (p : Word) (o : Option OutputEvent) (s : State) : (retired p o s).config = s.config := rfl
@[simp] theorem retired_returned (p : Word) (o : Option OutputEvent) (s : State) :
    (retired p o s).returned = some (.ok s.isRunning o) := rfl
@[simp] theorem readReg_retired (p : Word) (o : Option OutputEvent) (s : State) (q : Reg) :
    readReg (retired p o s) q = readReg s q := rfl

/-! ### faultedBy -/

@[simp] theorem faultedBy_x (f : Fault) (s : State) : (faultedBy f s).x = s.x := rfl
@[simp] theorem faultedBy_pc (f : Fault) (s : State) : (faultedBy f s).pc = s.pc := rfl
@[simp] theorem faultedBy_cmpf (f : Fault) (s : State) : (faultedBy f s).cmpf = s.cmpf := rfl
@[simp] theorem faultedBy_zf (f : Fault) (s : State) : (faultedBy f s).zf = s.zf := rfl
@[simp] theorem faultedBy_status (f : Fault) (s : State) : (faultedBy f s).status = .faulted ⟨f, s.pc⟩ := rfl
@[simp] theorem faultedBy_prog (f : Fault) (s : State) : (faultedBy f s).prog = s.prog := rfl
@[simp] theorem faultedBy_config (f : Fault) (s : State) : (faultedBy f s).config = s.config := rfl
@[simp] theorem faultedBy_returned (f : Fault) (s : State) : (faultedBy f s).returned = some (.err ⟨f, s.pc⟩) := rfl
@[simp] theorem readReg_faultedBy (f : Fault) (s : State) (q : Reg) : readReg (faultedBy f s) q = readReg s q := rfl

/-! ### The two endings of a step -/

theorem retire_next {p : Word} {o : Option OutputEvent} {s t : State} :
    retire p o s = .next t ↔ t = retired p o s :=
  ⟨fun h => (Host.Outcome.next.inj h).symm, fun h => h ▸ rfl⟩

theorem raise_next {f : Fault} {s t : State} : raise f s = .next t ↔ t = faultedBy f s :=
  ⟨fun h => (Host.Outcome.next.inj h).symm, fun h => h ▸ rfl⟩

end Sys2Proof.Machine
end

