-- ==== Sys2Proof/Laws/Exec.lean ====
section
/-! SUPPORT. What each shared operation can do, once, and from that what `exec` and `step` can do. -/

namespace Sys2Proof.Machine

/-! ### Operands and conditions -/

@[simp] theorem srcValue_reg (r : Reg) (s : State) : srcValue (.reg r) s = readReg s r := rfl
@[simp] theorem srcValue_imm (n : Word) (s : State) : srcValue (.imm n) s = n := rfl

theorem nextPc_toNat (v : Src) (s : State) : (nextPc v s).toNat = (s.pc.toNat + srcLen v) % 2 ^ 32 := by
  simp [nextPc]

/-- `cmpf` of a comparison tells the unsigned order (42_compare_branch.md R150). -/
theorem compareFlag_toInt (a v : Word) :
    (compareFlag a v).toInt = if a.toNat < v.toNat then -1 else if a.toNat = v.toNat then 0 else 1 := by
  unfold compareFlag
  split
  · rfl
  split <;> rfl

theorem compareFlag_equal_iff (a v : Word) : compareFlag a v = .equal ↔ compareZero a v = true := by
  unfold compareFlag compareZero
  rw [beq_iff_eq, ← BitVec.toNat_inj]
  split
  · simp only [reduceCtorEq, false_iff]
    omega
  split <;> simp_all

/-! ### Shared operations -/

theorem withReg1_some (op : Opcode) (r : Reg) (s : State) (k : Reg → Res) : withReg1 op (some r) s k = k r := rfl
theorem withReg1_none (op : Opcode) (s : State) (k : Reg → Res) :
    withReg1 op none s k = raise (.nullRegisterOperand op) s := rfl

/-- An ALU instruction whose operation gives a result. -/
theorem aluOp_ok {op : Opcode} {r : Reg} {v : Src} {s : State} {alu : Word → Word → Except Fault Word} {d : Word}
    (h : alu (readReg s r) (srcValue v s) = .ok d) :
    aluOp op (some r) v s alu = .next (retired (nextPc v s) none (writeReg r d s)) := by
  simp [aluOp, withReg1, h, retire]

/-- An ALU instruction whose operation is a fault. -/
theorem aluOp_error {op : Opcode} {r : Reg} {v : Src} {s : State} {alu : Word → Word → Except Fault Word} {f : Fault}
    (h : alu (readReg s r) (srcValue v s) = .error f) :
    aluOp op (some r) v s alu = .next (faultedBy f s) := by
  simp [aluOp, withReg1, h, raise]

theorem undefinedOp_fault {op : Opcode} {v : Src} {s : State} (h : s.config.unimplementedOps = .fault) :
    undefinedOp op v s = .next (faultedBy (.unimplementedOpcode op) s) := by
  simp [undefinedOp, h, raise]

theorem undefinedOp_nop {op : Opcode} {v : Src} {s : State} (h : s.config.unimplementedOps = .nop) :
    undefinedOp op v s = .next (retired (nextPc v s) none s) := by
  simp [undefinedOp, h, retire]

/-- Everything an ALU instruction can do. -/
theorem aluOp_cases (op : Opcode) (r1 : Option Reg) (v : Src) (s : State) (alu : Word → Word → Except Fault Word) :
    (∃ f, aluOp op r1 v s alu = raise f s) ∨
      ∃ r d, r1 = some r ∧ alu (readReg s r) (srcValue v s) = .ok d ∧
        aluOp op r1 v s alu = retire (nextPc v s) none (writeReg r d s) := by
  rcases r1 with _ | r
  · exact .inl ⟨_, rfl⟩
  · cases h : alu (readReg s r) (srcValue v s) with
    | error f => exact .inl ⟨f, aluOp_error h⟩
    | ok d => exact .inr ⟨r, d, rfl, h, aluOp_ok h⟩

/-! ### exec, instruction by instruction, in terms of the shared operations -/

theorem exec_mov (r1 : Option Reg) (v : Src) (s : State) :
    exec (.mov r1 v) s = aluOp .mov r1 v s aluMove := rfl
theorem exec_inc (r1 : Option Reg) (v : Src) (s : State) :
    exec (.inc r1 v) s = aluOp .inc r1 v s aluInc := rfl
theorem exec_shl (r1 : Option Reg) (v : Src) (s : State) :
    exec (.shl r1 v) s = aluOp .shl r1 v s aluShl := rfl
theorem exec_shr (r1 : Option Reg) (v : Src) (s : State) :
    exec (.shr r1 v) s = aluOp .shr r1 v s aluShr := rfl
theorem exec_add (r1 : Option Reg) (v : Src) (s : State) :
    exec (.add r1 v) s = aluOp .add r1 v s aluAdd := rfl
theorem exec_sub (r1 : Option Reg) (v : Src) (s : State) :
    exec (.sub r1 v) s = aluOp .sub r1 v s aluSub := rfl
theorem exec_mul (r1 : Option Reg) (v : Src) (s : State) :
    exec (.mul r1 v) s = aluOp .mul r1 v s aluMul := rfl
theorem exec_div (r1 : Option Reg) (v : Src) (s : State) :
    exec (.div r1 v) s = aluOp .div r1 v s aluDiv := rfl
theorem exec_xor (r1 : Option Reg) (v : Src) (s : State) :
    exec (.xor r1 v) s = aluOp .xor r1 v s aluXor := rfl
theorem exec_je (r1 : Option Reg) (v : Src) (s : State) :
    exec (.je r1 v) s = branchOp (condEqual s) v s := rfl
theorem exec_jn (r1 : Option Reg) (v : Src) (s : State) :
    exec (.jn r1 v) s = branchOp (condNotEqual s) v s := rfl
theorem exec_jg (r1 : Option Reg) (v : Src) (s : State) :
    exec (.jg r1 v) s = branchOp (condGreater s) v s := rfl
theorem exec_jl (r1 : Option Reg) (v : Src) (s : State) :
    exec (.jl r1 v) s = branchOp (condLess s) v s := rfl
theorem exec_jz (r1 : Option Reg) (v : Src) (s : State) :
    exec (.jz r1 v) s = branchOp (condZero s) v s := rfl
theorem exec_jmp (r1 : Option Reg) (v : Src) (s : State) :
    exec (.jmp r1 v) s = branchOp true v s := rfl
theorem exec_mmov (r1 : Option Reg) (v : Src) (s : State) :
    exec (.mmov r1 v) s = undefinedOp .mmov v s := rfl
theorem exec_mset (r1 : Option Reg) (v : Src) (s : State) :
    exec (.mset r1 v) s = undefinedOp .mset v s := rfl
theorem exec_inp (r1 : Option Reg) (v : Src) (s : State) :
    exec (.inp r1 v) s = undefinedOp .inp v s := rfl
theorem exec_push (r1 : Option Reg) (v : Src) (s : State) :
    exec (.push r1 v) s = undefinedOp .push v s := rfl
theorem exec_pop (r1 : Option Reg) (v : Src) (s : State) :
    exec (.pop r1 v) s = undefinedOp .pop v s := rfl
theorem exec_nop (r1 : Option Reg) (v : Src) (s : State) :
    exec (.nop r1 v) s = retire (nextPc v s) none s := rfl
theorem exec_hlt (r1 : Option Reg) (v : Src) (s : State) :
    exec (.hlt r1 v) s = retire (nextPc v s) none { s with status := .halted } := rfl
theorem exec_out (r : Reg) (v : Src) (s : State) :
    exec (.out (some r) v) s = retire (nextPc v s) (some ⟨readReg s r, srcValue v s⟩) s := rfl
theorem exec_cmp (r : Reg) (v : Src) (s : State) :
    exec (.cmp (some r) v) s = retire (nextPc v s) none
      (setFlags (compareFlag (readReg s r) (srcValue v s)) (compareZero (readReg s r) (srcValue v s)) s) := rfl

/-! ### What exec can do -/

/-- The ways an instruction can end. -/
inductive ExecCase (i : Instr) (s : State) : State → Prop where
  | fault (f : Fault) : ExecCase i s (faultedBy f s)
  | wrote (r : Reg) (d : Word) (hr : i.r1 = some r)
      (hop : i.opcode ∈ [Opcode.mov, .inc, .shl, .shr, .add, .sub, .mul, .div, .xor]) :
      ExecCase i s (retired (nextPc i.val s) none (writeReg r d s))
  | branched (p : Word) (hop : i.opcode ∈ [Opcode.jmp, .je, .jn, .jz, .jg, .jl])
      (hp : p = nextPc i.val s ∨ p = srcValue i.val s) : ExecCase i s (retired p none s)
  | compared (r : Reg) (hr : i.r1 = some r) (hop : i.opcode = .cmp) :
      ExecCase i s (retired (nextPc i.val s) none
        (setFlags (compareFlag (readReg s r) (srcValue i.val s)) (compareZero (readReg s r) (srcValue i.val s)) s))
  | halted (hop : i.opcode = .hlt) : ExecCase i s (retired (nextPc i.val s) none { s with status := .halted })
  | sent (r : Reg) (hr : i.r1 = some r) (hop : i.opcode = .out) :
      ExecCase i s (retired (nextPc i.val s) (some ⟨readReg s r, srcValue i.val s⟩) s)
  | advanced (hop : i.opcode ∈ [Opcode.nop, .mmov, .mset, .inp, .push, .pop]) :
      ExecCase i s (retired (nextPc i.val s) none s)

/-- The inversion of `exec`: every instruction answers a next state, in one of these ways. -/
theorem exec_cases (i : Instr) (s : State) : ∃ t, exec i s = .next t ∧ ExecCase i s t := by
  have alu : ∀ (op : Opcode) (f : Word → Word → Except Fault Word),
      i.opcode ∈ [Opcode.mov, .inc, .shl, .shr, .add, .sub, .mul, .div, .xor] →
      exec i s = aluOp op i.r1 i.val s f → ∃ t, exec i s = .next t ∧ ExecCase i s t := by
    intro op f hop he
    rcases aluOp_cases op i.r1 i.val s f with ⟨g, hg⟩ | ⟨r, d, hr, -, hd⟩
    · exact ⟨_, he.trans hg, .fault g⟩
    · exact ⟨_, he.trans hd, .wrote r d hr hop⟩
  have branch : ∀ taken : Bool, i.opcode ∈ [Opcode.jmp, .je, .jn, .jz, .jg, .jl] →
      exec i s = branchOp taken i.val s → ∃ t, exec i s = .next t ∧ ExecCase i s t := by
    intro taken hop he
    refine ⟨_, he, .branched _ hop ?_⟩
    cases taken
    · exact .inl rfl
    · exact .inr rfl
  have undef : ∀ op : Opcode, i.opcode ∈ [Opcode.nop, .mmov, .mset, .inp, .push, .pop] →
      exec i s = undefinedOp op i.val s → ∃ t, exec i s = .next t ∧ ExecCase i s t := by
    intro op hop he
    cases hu : s.config.unimplementedOps with
    | fault => exact ⟨_, he.trans (undefinedOp_fault hu), .fault _⟩
    | nop => exact ⟨_, he.trans (undefinedOp_nop hu), .advanced hop⟩
  cases i with
  | nop r1 v => exact ⟨_, rfl, .advanced (by simp [Instr.opcode])⟩
  | hlt r1 v => exact ⟨_, rfl, .halted rfl⟩
  | out r1 v =>
    cases r1 with
    | none => exact ⟨_, rfl, .fault _⟩
    | some r => exact ⟨_, rfl, .sent r rfl rfl⟩
  | cmp r1 v =>
    cases r1 with
    | none => exact ⟨_, rfl, .fault _⟩
    | some r => exact ⟨_, rfl, .compared r rfl rfl⟩
  | jmp r1 v => exact branch _ (by simp [Instr.opcode]) rfl
  | je r1 v => exact branch _ (by simp [Instr.opcode]) rfl
  | jn r1 v => exact branch _ (by simp [Instr.opcode]) rfl
  | jg r1 v => exact branch _ (by simp [Instr.opcode]) rfl
  | jl r1 v => exact branch _ (by simp [Instr.opcode]) rfl
  | jz r1 v => exact branch _ (by simp [Instr.opcode]) rfl
  | mmov r1 v => exact undef .mmov (by simp [Instr.opcode]) rfl
  | mset r1 v => exact undef .mset (by simp [Instr.opcode]) rfl
  | inp r1 v => exact undef .inp (by simp [Instr.opcode]) rfl
  | push r1 v => exact undef .push (by simp [Instr.opcode]) rfl
  | pop r1 v => exact undef .pop (by simp [Instr.opcode]) rfl
  | mov r1 v => exact alu .mov aluMove (by simp [Instr.opcode]) rfl
  | inc r1 v => exact alu .inc aluInc (by simp [Instr.opcode]) rfl
  | shl r1 v => exact alu .shl aluShl (by simp [Instr.opcode]) rfl
  | shr r1 v => exact alu .shr aluShr (by simp [Instr.opcode]) rfl
  | add r1 v => exact alu .add aluAdd (by simp [Instr.opcode]) rfl
  | sub r1 v => exact alu .sub aluSub (by simp [Instr.opcode]) rfl
  | mul r1 v => exact alu .mul aluMul (by simp [Instr.opcode]) rfl
  | div r1 v => exact alu .div aluDiv (by simp [Instr.opcode]) rfl
  | xor r1 v => exact alu .xor aluXor (by simp [Instr.opcode]) rfl

theorem exec_next_cases {i : Instr} {s t : State} (h : exec i s = .next t) : ExecCase i s t := by
  obtain ⟨t', h', hc⟩ := exec_cases i s
  rw [h] at h'
  cases h'
  exact hc

/-! ### step -/

theorem step_halted {s : State} (h : s.status = .halted) : step s = stepHalted s := by
  simp [step, h]

theorem step_faulted {s : State} {f : FaultRecord} (h : s.status = .faulted f) : step s = stepFaulted f s := by
  simp [step, h]

theorem step_error {s : State} {f : Fault} (h : s.status = .running) (hf : fetchDecode s = .error f) :
    step s = .next (faultedBy f s) := by
  simp [step, h, hf, raise]

theorem step_ok {s : State} {i : Instr} (h : s.status = .running) (hf : fetchDecode s = .ok i) :
    step s = exec i s := by
  simp [step, h, hf]

/-- The three states of the sequencer (10_state.md R28). -/
theorem status_cases (s : State) :
    s.status = .running ∨ s.status = .halted ∨ ∃ f, s.status = .faulted f := by
  cases s.status with
  | running => exact .inl rfl
  | halted => exact .inr (.inl rfl)
  | faulted f => exact .inr (.inr ⟨f, rfl⟩)

/-- The ways a step can end. -/
inductive StepCase (s : State) : State → Prop where
  | halted (h : s.status = .halted) : StepCase s { s with returned := some (.ok false none) }
  | faulted (f : FaultRecord) (h : s.status = .faulted f) : StepCase s { s with returned := some (.err f) }
  | error (f : Fault) (h : s.status = .running) (hf : fetchDecode s = .error f) : StepCase s (faultedBy f s)
  | ran (i : Instr) (t : State) (h : s.status = .running) (hf : fetchDecode s = .ok i) (he : exec i s = .next t)
      (hc : ExecCase i s t) : StepCase s t

/-- The inversion of `step`: it always answers a next state, in one of these ways. -/
theorem step_cases (s : State) : ∃ t, step s = .next t ∧ StepCase s t := by
  cases h : s.status with
  | halted => exact ⟨_, step_halted h, .halted h⟩
  | faulted f => exact ⟨_, step_faulted h, .faulted f h⟩
  | running =>
    cases hf : fetchDecode s with
    | error f => exact ⟨_, step_error h hf, .error f h hf⟩
    | ok i =>
      obtain ⟨t, ht, hc⟩ := exec_cases i s
      exact ⟨t, (step_ok h hf).trans ht, .ran i t h hf ht hc⟩

theorem step_next_cases {s t : State} (h : step s = .next t) : StepCase s t := by
  obtain ⟨t', h', hc⟩ := step_cases s
  rw [h] at h'
  cases h'
  exact hc

/-- Fetch and decode give what the decoder gives on the bytes from the pc on, for a buffer in canonical form
(40_step_cycle.md R112). -/
theorem fetchDecode_of_wf {s : State} (h : Memory.wf s.prog) :
    fetchDecode s = match decode s.config.opcodeCode (bytesAtPc s) with
      | .ok (i, _) => .ok i
      | .error e => .error (faultOfDecode s.pc e) := by
  have next : ∀ w rest, takeWord (bytesAtPc s) = some (w, rest) →
      readProgWord s (s.pc.toNat + 1) = (takeWord rest).map Prod.fst := by
    intro w rest hw
    rw [readProgWord_of_wf h, takeWord_rest hw, bytesAtPc, List.drop_drop]
    rfl
  unfold fetchDecode decode
  rw [readProgWord_of_wf h]
  cases hw : takeWord (bytesAtPc s) with
  | none => simp [bytesAtPc] at hw; simp [hw, faultOfDecode]
  | some p =>
    obtain ⟨w, rest⟩ := p
    have hw' := hw
    rw [bytesAtPc] at hw'
    rw [hw']
    simp only [Option.map_some]
    cases hd : decodeHead s.config.opcodeCode w with
    | error e => rfl
    | ok hh =>
      simp only
      cases hh.r2 with
      | some r => rfl
      | none =>
        simp only [next w rest hw]
        cases takeWord rest with
        | none => rfl
        | some q => rfl

/-- One more step of a run of any machine. -/
theorem run_succ (M : Host.Core) {s t : M.State} (n : Nat) (h : M.step s = .next t) : M.run (n + 1) s = M.run n t := by
  rw [Host.Core.run, h]

/-- One more step of a run. -/
theorem core_run_succ {s t : State} (n : Nat) (h : step s = .next t) :
    Host.Core.run Sys2Proof.core (n + 1) s = Host.Core.run Sys2Proof.core n t :=
  run_succ Sys2Proof.core n h

end Sys2Proof.Machine
end

