-- ==== Sys2Proof/Laws/PerInstr.lean ====
section
/-! SUPPORT. Per-instruction facts about `Instr` as syntax, one lemma per constructor. -/

/-- The shape every instruction has: it is the instruction of its three parts, its encoding has one word in the RR form and
two in the RI form, and it is well formed exactly when the null check of 30_encoding.md R72 lets it pass. -/
def Sys2Proof.Laws.Shape.Statement (i : Sys2Proof.Instr) : Prop :=
  Sys2Proof.Instr.ofParts i.opcode i.r1 i.val = i ∧
    (∀ oc, (Sys2Proof.encode oc i).length = match i.val with | .reg _ => 1 | .imm _ => 2) ∧
    (i.wf = true ↔ (i.opcode.usesReg1 = true → i.r1 ≠ none))

namespace Sys2Proof.Laws.Shape

open Sys2Proof

theorem of_parts (i : Instr) (h : Instr.ofParts i.opcode i.r1 i.val = i) : Statement i := by
  refine ⟨h, fun oc => ?_, wf_iff⟩
  unfold encode
  cases i.val <;> rfl

theorem nop (r1 : Option Reg) (val : Src) : Statement (.nop r1 val) := of_parts _ rfl
theorem jmp (r1 : Option Reg) (val : Src) : Statement (.jmp r1 val) := of_parts _ rfl
theorem hlt (r1 : Option Reg) (val : Src) : Statement (.hlt r1 val) := of_parts _ rfl
theorem inc (r1 : Option Reg) (val : Src) : Statement (.inc r1 val) := of_parts _ rfl
theorem shr (r1 : Option Reg) (val : Src) : Statement (.shr r1 val) := of_parts _ rfl
theorem shl (r1 : Option Reg) (val : Src) : Statement (.shl r1 val) := of_parts _ rfl
theorem mov (r1 : Option Reg) (val : Src) : Statement (.mov r1 val) := of_parts _ rfl
theorem add (r1 : Option Reg) (val : Src) : Statement (.add r1 val) := of_parts _ rfl
theorem sub (r1 : Option Reg) (val : Src) : Statement (.sub r1 val) := of_parts _ rfl
theorem mul (r1 : Option Reg) (val : Src) : Statement (.mul r1 val) := of_parts _ rfl
theorem div (r1 : Option Reg) (val : Src) : Statement (.div r1 val) := of_parts _ rfl
theorem je (r1 : Option Reg) (val : Src) : Statement (.je r1 val) := of_parts _ rfl
theorem jn (r1 : Option Reg) (val : Src) : Statement (.jn r1 val) := of_parts _ rfl
theorem mmov (r1 : Option Reg) (val : Src) : Statement (.mmov r1 val) := of_parts _ rfl
theorem mset (r1 : Option Reg) (val : Src) : Statement (.mset r1 val) := of_parts _ rfl
theorem xor (r1 : Option Reg) (val : Src) : Statement (.xor r1 val) := of_parts _ rfl
theorem inp (r1 : Option Reg) (val : Src) : Statement (.inp r1 val) := of_parts _ rfl
theorem out (r1 : Option Reg) (val : Src) : Statement (.out r1 val) := of_parts _ rfl
theorem push (r1 : Option Reg) (val : Src) : Statement (.push r1 val) := of_parts _ rfl
theorem pop (r1 : Option Reg) (val : Src) : Statement (.pop r1 val) := of_parts _ rfl
theorem jz (r1 : Option Reg) (val : Src) : Statement (.jz r1 val) := of_parts _ rfl
theorem jg (r1 : Option Reg) (val : Src) : Statement (.jg r1 val) := of_parts _ rfl
theorem jl (r1 : Option Reg) (val : Src) : Statement (.jl r1 val) := of_parts _ rfl
theorem cmp (r1 : Option Reg) (val : Src) : Statement (.cmp r1 val) := of_parts _ rfl

end Sys2Proof.Laws.Shape
end

