-- ==== Sys2Proof/Tests/Slice0.lean ====
section
/-! SUPPORT. Tests with expected results from the spec (95_test_vectors.md, and the examples of the instruction rules), smoke
tests of the well-formedness checks, and for every statement with hypotheses a witness that meets them. -/

namespace Sys2Proof.Tests

open Sys2Proof.Machine Sys2Proof.Claims

/-! ### Helpers -/

/-- The state after loading the given words. -/
def boot (ws : List Word) : State :=
  (loadProgram (ws.flatMap bytesOfWord) State.reset).2

/-- The same with one register set. -/
def bootReg (ws : List Word) (r : Reg) (d : Word) : State :=
  writeReg r d (boot ws)

/-- The state after one step. -/
def after (s : State) : Option State :=
  match step s with
  | .next t => some t
  | _ => none

/-- What a step from a state gives: one register, the pc. -/
def regPc (s : State) (r : Reg) : Option (Word × Word) :=
  (after s).map fun t => (readReg t r, t.pc)

/-- What a step from a state gives: the status, the pc. -/
def statusPc (s : State) : Option (Status × Word) :=
  (after s).map fun t => (t.status, t.pc)

/-- What a step from a state returns to the host, and the pc. -/
def resultPc (s : State) : Option (Option StepResult × Word) :=
  (after s).map fun t => (t.returned, t.pc)

/-- The pc after one step with given flags. -/
def pcWith (ws : List Word) (c : CmpFlag) (z : Bool) : Option Word :=
  (after (setFlags c z (boot ws))).map fun t => t.pc

/-- A machine that takes the five undefined opcodes as nop. -/
def asNop (s : State) : State :=
  { s with config := { s.config with unimplementedOps := .nop } }

/-- Other injective opcode codes: the default order, numbered downwards from 123. -/
def otherCodes : OpcodeCode :=
  #v[123, 122, 121, 120, 119, 118, 117, 116, 115, 114, 113, 112, 111, 110, 109, 108, 107, 106, 105, 104, 103, 102, 101, 100]

/-! ### Well-formedness smoke tests: each check refuses an ill-formed term -/

theorem test_wf_refuses_null_reg1 : (Instr.add none (.reg .a)).wf = false := by decide
theorem test_wf_accepts_null_unused : (Instr.jmp none (.imm 4)).wf = true := by decide
theorem test_wf_refuses_shared_code :
    ¬ Config.wf { opcodeCode := Vector.replicate 24 7, unimplementedOps := .fault } := by decide
theorem test_wf_accepts_default_codes : Config.wf Config.default := by decide
theorem test_wf_refuses_partial_word : imageWf [1, 2, 3] = false := by decide
theorem test_wf_accepts_empty_image : imageWf [] = true := by decide
theorem test_memory_wf_refuses_gap : ¬ Memory.wf [(0, 1), (1, 2), (2, 3), (4, 4)] := by decide
theorem test_reset_memory_wf : Memory.wf State.reset.prog := by decide

/-! ### Decoding: words written out from 30_encoding.md R60, R61, R66 and R69, bytes in memory order -/

theorem test_decode_nop : decode OpcodeCode.default [0, 0, 0x00, 0, 0, 0, 0, 0] = .ok (.nop none (.imm 0), []) := by decide
theorem test_decode_jmp : decode OpcodeCode.default [2, 0, 0x01, 0] = .ok (.jmp none (.reg .b), []) := by decide
theorem test_decode_hlt : decode OpcodeCode.default [1, 1, 0x02, 0] = .ok (.hlt (some .a) (.reg .a), []) := by decide
theorem test_decode_inc : decode OpcodeCode.default [1, 1, 0x03, 0] = .ok (.inc (some .a) (.reg .a), []) := by decide
theorem test_decode_shr :
    decode OpcodeCode.default [0, 3, 0x04, 0, 0x1F, 0, 0, 0] = .ok (.shr (some .c) (.imm 31), []) := by decide
theorem test_decode_shl :
    decode OpcodeCode.default [0, 4, 0x05, 0, 0x01, 0, 0, 0] = .ok (.shl (some .d) (.imm 1), []) := by decide
theorem test_decode_mov :
    decode OpcodeCode.default [0, 1, 0x06, 0, 0x05, 0, 0, 0] = .ok (.mov (some .a) (.imm 5), []) := by decide
theorem test_decode_add :
    decode OpcodeCode.default [0, 2, 0x07, 0, 0xFF, 0xFF, 0xFF, 0xFF] = .ok (.add (some .b) (.imm 0xFFFFFFFF), []) := by decide
theorem test_decode_sub :
    decode OpcodeCode.default [0, 7, 0x08, 0, 0x78, 0x56, 0x34, 0x12] = .ok (.sub (some .y) (.imm 0x12345678), []) := by decide
theorem test_decode_mul : decode OpcodeCode.default [1, 2, 0x09, 0] = .ok (.mul (some .b) (.reg .a), []) := by decide
theorem test_decode_div : decode OpcodeCode.default [6, 5, 0x0A, 0] = .ok (.div (some .e) (.reg .x), []) := by decide
theorem test_decode_je :
    decode OpcodeCode.default [0, 0, 0x0B, 0, 0x0E, 0, 0, 0] = .ok (.je none (.imm 14), []) := by decide
theorem test_decode_jn :
    decode OpcodeCode.default [0, 0, 0x0C, 0, 0x02, 0, 0, 0] = .ok (.jn none (.imm 2), []) := by decide
theorem test_decode_mmov : decode OpcodeCode.default [2, 1, 0x0D, 0] = .ok (.mmov (some .a) (.reg .b), []) := by decide
theorem test_decode_mset : decode OpcodeCode.default [2, 1, 0x0E, 0] = .ok (.mset (some .a) (.reg .b), []) := by decide
theorem test_decode_xor : decode OpcodeCode.default [3, 4, 0x0F, 0] = .ok (.xor (some .d) (.reg .c), []) := by decide
theorem test_decode_in : decode OpcodeCode.default [2, 1, 0x10, 0] = .ok (.inp (some .a) (.reg .b), []) := by decide
theorem test_decode_out : decode OpcodeCode.default [4, 3, 0x11, 0] = .ok (.out (some .c) (.reg .d), []) := by decide
theorem test_decode_push : decode OpcodeCode.default [1, 1, 0x12, 0] = .ok (.push (some .a) (.reg .a), []) := by decide
theorem test_decode_pop : decode OpcodeCode.default [2, 1, 0x13, 0, 9] = .ok (.pop (some .a) (.reg .b), [9]) := by decide
theorem test_decode_jz :
    decode OpcodeCode.default [0, 0, 0x14, 0, 0x14, 0, 0, 0] = .ok (.jz none (.imm 20), []) := by decide
theorem test_decode_jg :
    decode OpcodeCode.default [0, 0, 0x15, 0, 0x04, 0, 0, 0] = .ok (.jg none (.imm 4), []) := by decide
theorem test_decode_jl : decode OpcodeCode.default [8, 0, 0x16, 0] = .ok (.jl none (.reg .z), []) := by decide
theorem test_decode_cmp :
    decode OpcodeCode.default [0, 1, 0x17, 0, 0x0A, 0, 0, 0] = .ok (.cmp (some .a) (.imm 10), []) := by decide

/-- 95_test_vectors.md D-1, D-5, D-6, D-7, D-8: what is refused, and which check comes first. -/
theorem test_decode_illegal_opcode : decode OpcodeCode.default [9, 9, 0x18, 0] = .error (.illegalOpcode 24) := by decide
theorem test_decode_illegal_first : decode OpcodeCode.default [9, 9, 0x06, 0] = .error (.illegalRegister .first 9) := by decide
theorem test_decode_illegal_second : decode OpcodeCode.default [9, 1, 0x06, 0] = .error (.illegalRegister .second 9) := by decide
theorem test_decode_illegal_unused : decode OpcodeCode.default [0, 9, 0x00, 0] = .error (.illegalRegister .first 9) := by decide
theorem test_decode_null_reg1 : decode OpcodeCode.default [1, 0, 0x06, 0] = .error (.nullRegisterOperand .mov) := by decide
theorem test_decode_missing_immediate : decode OpcodeCode.default [0, 1, 0x05, 0] = .error (.missingWord 1) := by decide
/-- The same bytes under other codes are another instruction. -/
theorem test_decode_other_codes : decode otherCodes [1, 1, 0x7B, 0] = .ok (.nop (some .a) (.reg .a), []) := by decide
/-- 95_test_vectors.md D-14. -/
theorem test_encode_mov : encodeBytes OpcodeCode.default (.mov (some .a) (.imm 5)) = [0, 1, 6, 0, 5, 0, 0, 0] := by decide
/-- The host's question: the word of `inc a`, and a row's word with the null field the spec refuses (R72). -/
theorem test_table_word : decodeTableWord 32 0x00030101 = some (.inc (some .a) (.reg .a)) := by decide
theorem test_table_word_null : decodeTableWord 32 0x00030000 = none := by decide
theorem test_withFetchWord : regPc (State.reset.withFetchWord 32 0x00060300) .c = some (0, 2) := by decide

/-! ### One step each: vectors of 95_test_vectors.md -/

/-- A-1, A-2 -/
theorem test_mov_imm : regPc (boot [0x00060100, 5]) .a = some (5, 2) := by decide
/-- A-3 -/
theorem test_inc_wraps : regPc (bootReg [0x00030101] .a 0xFFFFFFFF) .a = some (0, 1) := by decide
/-- D-13 -/
theorem test_inc_ignores_imm : regPc (bootReg [0x00030100, 0x7B] .a 7) .a = some (8, 2) := by decide
/-- A-4, A-8 -/
theorem test_shl_loses_top : regPc (bootReg [0x00050400, 1] .d 0x80000001) .d = some (2, 2) := by decide
theorem test_shl_same_register : regPc (bootReg [0x00050101] .a 4) .a = some (0x40, 1) := by decide
/-- A-10, A-11 -/
theorem test_shr_logical : regPc (bootReg [0x00040100, 4] .a 0xF0000000) .a = some (0x0F000000, 2) := by decide
theorem test_shr_out_of_range :
    statusPc (bootReg [0x00040100, 0x21] .a 1) = some (.faulted ⟨.shiftOutOfRange 33, 0⟩, 0) := by decide
/-- A-12, A-13 -/
theorem test_add_wraps : regPc (bootReg [0x00070200, 0xFFFFFFFF] .b 2) .b = some (1, 2) := by decide
theorem test_add_same_register : regPc (bootReg [0x00070101] .a 0x80000000) .a = some (0, 1) := by decide
/-- A-15 -/
theorem test_sub_underflow : regPc (bootReg [0x00080100, 5] .a 3) .a = some (0xFFFFFFFE, 2) := by decide
/-- A-16: sub leaves the zero flag. -/
theorem test_sub_leaves_zf : (after (bootReg [0x00080101] .a 77)).map (fun t => t.zf) = some false := by decide
/-- A-18 -/
theorem test_mul_low_half : regPc (bootReg [0x00090101] .a 0xFFFFFFFF) .a = some (1, 1) := by decide
/-- A-20, S-8 -/
theorem test_div_rounds_down : regPc (bootReg [0x000A0500, 2] .e 7) .e = some (3, 2) := by decide
theorem test_div_by_zero : statusPc (bootReg [0x000A0100, 0] .a 9) = some (.faulted ⟨.divideByZero, 0⟩, 0) := by decide
/-- A-27 -/
theorem test_xor_inverts : regPc (bootReg [0x000F0100, 0xFFFFFFFF] .a 0x0F0F0F0F) .a = some (0xF0F0F0F0, 2) := by decide
/-- B-1: unsigned. -/
theorem test_cmp_unsigned : (after (bootReg [0x00170100, 0] .a 0xFFFFFFFF)).map (fun t => (t.cmpf, t.zf)) =
    some (.greater, false) := by decide
/-- L1-2 -/
theorem test_cmp_less : (after (bootReg [0x00170100, 10] .a 5)).map (fun t => (t.cmpf, t.zf)) = some (.less, false) := by decide
/-- B-4 -/
theorem test_jmp_register : regPc (bootReg [0x00010002] .b 7) .b = some (7, 7) := by decide
/-- The table of 95_test_vectors.md section 2.4: target 20, or 2 when not taken. -/
theorem test_je : [pcWith [0x000B0000, 20] .less false, pcWith [0x000B0000, 20] .equal false,
    pcWith [0x000B0000, 20] .greater false] = [some 2, some 20, some 2] := by decide
theorem test_jn : [pcWith [0x000C0000, 20] .less false, pcWith [0x000C0000, 20] .equal false,
    pcWith [0x000C0000, 20] .greater false] = [some 20, some 2, some 20] := by decide
theorem test_jg : [pcWith [0x00150000, 20] .less false, pcWith [0x00150000, 20] .equal false,
    pcWith [0x00150000, 20] .greater false] = [some 2, some 2, some 20] := by decide
theorem test_jl : [pcWith [0x00160000, 20] .less false, pcWith [0x00160000, 20] .equal false,
    pcWith [0x00160000, 20] .greater false] = [some 20, some 2, some 2] := by decide
theorem test_jz : [pcWith [0x00140000, 20] .equal false, pcWith [0x00140000, 20] .equal true] = [some 2, some 20] := by decide
/-- Y-1, Y-2 -/
theorem test_nop : resultPc (boot [0x00000101]) = some (some (.ok true none), 1) := by decide
theorem test_nop_two_words : resultPc (boot [0, 0]) = some (some (.ok true none), 2) := by decide
/-- Y-3, Y-4 -/
theorem test_hlt : resultPc (boot [0x00020000, 0]) = some (some (.ok false none), 2) := by decide
theorem test_hlt_status : statusPc (boot [0x00020101]) = some (.halted, 1) := by decide
/-- Y-5, Y-6 -/
theorem test_out : resultPc (bootReg [0x00110100, 42] .a 5) = some (some (.ok true (some ⟨5, 42⟩)), 2) := by decide
theorem test_out_same_register : resultPc (bootReg [0x00110101] .a 9) = some (some (.ok true (some ⟨9, 9⟩)), 1) := by decide
/-- U-1 to U-5, both settings -/
theorem test_mmov : [resultPc (boot [0x000D0102]), resultPc (asNop (boot [0x000D0102]))] =
    [some (some (.err ⟨.unimplementedOpcode .mmov, 0⟩), 0), some (some (.ok true none), 1)] := by decide
theorem test_mset : [resultPc (boot [0x000E0102]), resultPc (asNop (boot [0x000E0102]))] =
    [some (some (.err ⟨.unimplementedOpcode .mset, 0⟩), 0), some (some (.ok true none), 1)] := by decide
theorem test_in : [resultPc (boot [0x00100102]), resultPc (asNop (boot [0x00100102]))] =
    [some (some (.err ⟨.unimplementedOpcode .inp, 0⟩), 0), some (some (.ok true none), 1)] := by decide
theorem test_push : [resultPc (boot [0x00120102]), resultPc (asNop (boot [0x00120102]))] =
    [some (some (.err ⟨.unimplementedOpcode .push, 0⟩), 0), some (some (.ok true none), 1)] := by decide
theorem test_pop : [resultPc (boot [0x00130102]), resultPc (asNop (boot [0x00130102]))] =
    [some (some (.err ⟨.unimplementedOpcode .pop, 0⟩), 0), some (some (.ok true none), 1)] := by decide
/-- S-1, S-2, S-4, S-5 -/
theorem test_empty_image : statusPc State.reset = some (.faulted ⟨.pcOutOfBounds 0, 0⟩, 0) := by decide
theorem test_missing_immediate : statusPc (boot [0x00050100]) = some (.faulted ⟨.pcOutOfBounds 1, 0⟩, 0) := by decide
theorem test_register_before_immediate :
    statusPc (boot [0x00060900]) = some (.faulted ⟨.illegalRegister .first 9, 0⟩, 0) := by decide
theorem test_immediate_before_unimplemented :
    statusPc (boot [0x00130100]) = some (.faulted ⟨.pcOutOfBounds 1, 0⟩, 0) := by decide
/-- S-9 -/
theorem test_malformed_load : (loadProgram [1, 2, 3] State.reset).1 = .malformed 3 := by decide

/-! ### Witnesses: states and operands that meet the hypotheses of each statement -/

theorem witness_LoadProgramResetsEverything : ([] : List Byte).length % 4 = 0 ∧ ([0, 0, 0, 0] : List Byte).length % 4 = 0 := by
  decide

theorem witness_MalformedLoadChangesNothing : ([7] : List Byte).length % 4 ≠ 0 ∧ ([1, 2, 3] : List Byte).length % 4 ≠ 0 := by
  decide

/-- The last word of an image of two, and the first index past it. -/
theorem witness_LoadedWordsAreLittleEndian :
    let image : List Byte := [1, 2, 3, 4, 5, 6, 7, 8]
    image.length % 4 = 0 ∧ image[4 * 1]? = some 5 ∧ image[4 * 1 + 1]? = some 6 ∧ image[4 * 1 + 2]? = some 7 ∧
      image[4 * 1 + 3]? = some 8 ∧ image.length / 4 ≤ 2 := by
  decide

theorem witness_BranchesBeforeTheFirstCompare : ([0, 0, 0x0B, 0] : List Byte).length % 4 = 0 := by decide

theorem witness_ImmediateIsTheWholeSecondWord :
    (decode OpcodeCode.default (bytesOfWord 0x00060100 ++ [5, 0, 0, 0]) = .ok (.mov (some .a) (.imm 5), []) ∧
      (0x00060100 : Word).toNat % 2 ^ 8 = 0) ∧
    (decode OpcodeCode.default (bytesOfWord 0x00060108 ++ [5]) = .ok (.mov (some .a) (.reg .z), [5]) ∧
      (0x00060108 : Word).toNat % 2 ^ 8 ≠ 0) := by
  decide

theorem witness_DecodeOfEncodeIsIdentity :
    OpcodeCode.default.Injective ∧ otherCodes.Injective ∧ (Instr.cmp (some .z) (.imm 0xFFFFFFFF)).wf = true ∧
      (Instr.hlt none (.reg .a)).wf = true := by
  decide

theorem witness_EncodeOfDecodeIsIdentity :
    decode otherCodes [8, 8, 0x64, 0, 3] = .ok (.cmp (some .z) (.reg .z), [3]) := by decide

/-- Each clause at the edges of its range: fields 9 and 255, fields 8 and 9, a null field, and two fields of 8. -/
theorem witness_FirstWordChecksInOrder :
    (opcodeOf OpcodeCode.default (opcField 0x00060900) = some .mov ∧ 8 < (0x00060900 : Word).toNat / 2 ^ 8 % 2 ^ 8) ∧
    (opcodeOf OpcodeCode.default (opcField 0x0000FF00) = some .nop ∧ 8 < (0x0000FF00 : Word).toNat / 2 ^ 8 % 2 ^ 8) ∧
    (opcodeOf OpcodeCode.default (opcField 0x00060809) = some .mov ∧ (0x00060809 : Word).toNat / 2 ^ 8 % 2 ^ 8 ≤ 8 ∧
      8 < (0x00060809 : Word).toNat % 2 ^ 8) ∧
    (opcodeOf OpcodeCode.default (opcField 0x00060008) = some .mov ∧ (0x00060008 : Word).toNat / 2 ^ 8 % 2 ^ 8 = 0 ∧
      (0x00060008 : Word).toNat % 2 ^ 8 ≤ 8 ∧ Opcode.mov.usesReg1 = true) ∧
    (opcodeOf OpcodeCode.default (opcField 0x00060808) = some .mov ∧ (0x00060808 : Word).toNat / 2 ^ 8 % 2 ^ 8 ≤ 8 ∧
      (0x00060808 : Word).toNat % 2 ^ 8 ≤ 8 ∧ (0x00060808 : Word).toNat / 2 ^ 8 % 2 ^ 8 ≠ 0) ∧
    (opcodeOf OpcodeCode.default (opcField 0) = some .nop ∧ (0 : Word).toNat / 2 ^ 8 % 2 ^ 8 ≤ 8 ∧
      (0 : Word).toNat % 2 ^ 8 ≤ 8 ∧ Opcode.nop.usesReg1 = false) := by
  decide

theorem witness_StepRunsTheDecodedInstruction :
    (boot [0x00060100, 5]).status = .running ∧ Memory.wf (boot [0x00060100, 5]).prog ∧
      decode (boot [0x00060100, 5]).config.opcodeCode (bytesAtPc (boot [0x00060100, 5])) =
        .ok (.mov (some .a) (.imm 5), []) := by
  decide

/-- One state for each kind of rejection. -/
theorem witness_UndecodableBytesFault :
    (∀ ws ∈ [[], [(0x00180101 : Word)], [0x00060109], [0x00060001], [0x00050100]],
      (boot ws).status = .running ∧ Memory.wf (boot ws).prog) ∧
    decode OpcodeCode.default (bytesAtPc (boot [])) = .error (.missingWord 0) ∧
    decode OpcodeCode.default (bytesAtPc (boot [0x00180101])) = .error (.illegalOpcode 24) ∧
    decode OpcodeCode.default (bytesAtPc (boot [0x00060109])) = .error (.illegalRegister .second 9) ∧
    decode OpcodeCode.default (bytesAtPc (boot [0x00060001])) = .error (.nullRegisterOperand .mov) ∧
    decode OpcodeCode.default (bytesAtPc (boot [0x00050100])) = .error (.missingWord 1) := by
  decide

/-- The first index out of bounds, and the last one in bounds, with a word that does not decode. -/
theorem witness_FetchChecksTheBounds :
    (State.reset.status = .running ∧ State.reset.nwords ≤ State.reset.pc.toNat) ∧
    ((boot [0x00180101]).status = .running ∧ (boot [0x00180101]).pc.toNat < (boot [0x00180101]).nwords ∧
      Memory.wf (boot [0x00180101]).prog ∧ Memory.readWord (boot [0x00180101]).prog (4 * 0) = some 0x00180101 ∧
      decodeHead OpcodeCode.default 0x00180101 = .error (.illegalOpcode 24)) := by
  decide

/-- An image that ends with the first word of an RI instruction, and one with its immediate as the last word. -/
theorem witness_ImmediateFetchChecksTheBounds :
    (∀ s ∈ [boot [0x00020000], boot [0x00020000, 0]], s.status = .running ∧ Memory.wf s.prog ∧
      readProgWord s s.pc.toNat = some 0x00020000 ∧
      decodeHead s.config.opcodeCode 0x00020000 = .ok ⟨.hlt, none, none⟩) ∧
    (boot [0x00020000]).nwords ≤ (boot [0x00020000]).pc.toNat + 1 ∧
    (boot [0x00020000, 0]).pc.toNat + 1 < (boot [0x00020000, 0]).nwords := by
  decide

/-- The state after hlt. -/
def haltedState : State := { boot [0x00020101] with status := .halted, pc := 1 }

/-- The state after the first step of the empty image. -/
def faultedState : State := faultedBy (.pcOutOfBounds 0) State.reset

theorem witness_HaltedStepDoesNothing : haltedState.status = .halted ∧ ([0, 0, 0, 0] : List Byte).length % 4 = 0 := by
  decide
theorem witness_FaultedStepRepeatsItsRecord : faultedState.status = .faulted ⟨.pcOutOfBounds 0, 0⟩ := by decide
theorem witness_StoppedMachineStaysStopped : haltedState.status ≠ .running ∧ faultedState.status ≠ .running := by decide

theorem witness_FaultingStepIsPrecise :
    ∃ t r, State.reset.status = .running ∧ step State.reset = .next t ∧ t.status = .faulted r :=
  ⟨faultedState, ⟨.pcOutOfBounds 0, 0⟩, rfl, rfl, rfl⟩

/-- A state for each clause. -/
theorem witness_SequencerTransitions :
    haltedState.status = .halted ∧ faultedState.status = .faulted ⟨.pcOutOfBounds 0, 0⟩ ∧
    ((boot [0x00020101]).status = .running ∧ fetchDecode (boot [0x00020101]) = .ok (.hlt (some .a) (.reg .a))) ∧
    ((boot [0x00060100, 5]).status = .running ∧ fetchDecode (boot [0x00060100, 5]) = .ok (.mov (some .a) (.imm 5))) ∧
    ((boot [0x000A0100, 0]).status = .running ∧ fetchDecode (boot [0x000A0100, 0]) = .ok (.div (some .a) (.imm 0))) ∧
    (State.reset.status = .running ∧ fetchDecode State.reset = .error (.pcOutOfBounds 0)) ∧
    (transact (.loadProgram [0, 0, 0, 0]) haltedState).1 = .load .ok ∧
    (transact (.loadProgram [1, 2, 3]) haltedState).1 ≠ .load .ok := by
  decide

theorem witness_CompletedStepReturnsOk :
    ∃ t u v, (boot [0x00000101]).status = .running ∧
      fetchDecode (boot [0x00000101]) = .ok (.nop (some .a) (.reg .a)) ∧ step (boot [0x00000101]) = .next t ∧
      (∀ f, t.status ≠ .faulted f) ∧
      fetchDecode (boot [0x00110101]) = .ok (.out (some .a) (.reg .a)) ∧ step (boot [0x00110101]) = .next u ∧
      (∀ f, u.status ≠ .faulted f) ∧
      fetchDecode (boot [0x00020101]) = .ok (.hlt (some .a) (.reg .a)) ∧ step (boot [0x00020101]) = .next v ∧
      (∀ f, v.status ≠ .faulted f) :=
  ⟨_, _, _, rfl, by decide, rfl, nofun, by decide, rfl, nofun, by decide, rfl, nofun⟩

theorem witness_NormalEndIsAHalt :
    (∃ t, EndsNormally (boot [0x00020101]) t) ∧ (∃ t f, EndsAbnormally State.reset t f) :=
  ⟨⟨_, rfl, rfl, rfl⟩, ⟨_, _, rfl, rfl, rfl⟩⟩

/-- The largest amount that shifts and the smallest that faults. -/
theorem witness_ShiftsBelowThirtyTwo : (srcValue (.imm 31) State.reset).toNat < 32 := by decide
theorem witness_ShiftsByThirtyTwoOrMoreFault :
    32 ≤ (srcValue (.imm 32) State.reset).toNat ∧ 32 ≤ (srcValue (.imm 0xFFFFFFFF) State.reset).toNat := by decide
theorem witness_DivGivesTheQuotient : srcValue (.imm 1) State.reset ≠ 0 := by decide
theorem witness_DivByZeroFaults : srcValue (.imm 0) State.reset = 0 ∧ srcValue (.reg .a) State.reset = 0 := by decide

theorem witness_JmpGoesToTheOperand :
    ∃ t, exec (.jmp none (.imm 2)) (boot [0x00010000, 2]) = .next t ∧ t.status = .running ∧
      t.nwords ≤ (srcValue (.imm 2) (boot [0x00010000, 2])).toNat :=
  ⟨_, rfl, by decide, by decide⟩

theorem witness_CompareThenBranch :
    ∃ t, exec (.cmp (some .a) (.imm 10)) (boot [0x00170100, 10]) = .next t :=
  ⟨_, rfl⟩

theorem witness_UndefinedOpcodesAsNop :
    isUndefined .mmov ∧ isUndefined .mset ∧ isUndefined .inp ∧ isUndefined .push ∧ isUndefined .pop ∧
      (asNop State.reset).config.unimplementedOps = .nop := by
  simp [isUndefined, asNop]

theorem witness_UndefinedOpcodesFault : isUndefined .pop ∧ State.reset.config.unimplementedOps = .fault := by
  simp [isUndefined, State.reset, Config.default]

theorem witness_NullFirstOperandFaults : Opcode.inc.usesReg1 = true ∧ Opcode.cmp.usesReg1 = true := by decide

theorem witness_OnlyAluInstructionsWriteRegisters :
    ∃ t, exec (.mov (some .a) (.imm 5)) State.reset = .next t ∧ readReg t .a ≠ readReg State.reset .a :=
  ⟨_, rfl, by decide⟩

theorem witness_OnlyCmpWritesFlags :
    (∃ t, exec (.sub (some .a) (.reg .a)) State.reset = .next t ∧ (Instr.sub (some .a) (.reg .a)).opcode ≠ .cmp) ∧
    (∃ t, exec (.cmp (some .a) (.imm 0)) State.reset = .next t) :=
  ⟨⟨_, rfl, by decide⟩, ⟨_, rfl⟩⟩

theorem witness_FlagsAreReadOnlyByBranches :
    (∃ t, exec (.jz none (.imm 4)) State.reset = .next t ∧
      (Instr.jz none (.imm 4)).opcode ∉ [Opcode.je, .jn, .jg, .jl]) ∧
    (∃ t, exec (.je none (.imm 4)) State.reset = .next t ∧ (Instr.je none (.imm 4)).opcode ≠ .jz) :=
  ⟨⟨_, rfl, by decide⟩, ⟨_, rfl, by decide⟩⟩

theorem witness_PcAdvancesOrBranches :
    (∃ t, exec (.jmp none (.imm 4)) State.reset = .next t ∧ t.Safe) ∧
    (∃ t, exec (.hlt none (.imm 4)) State.reset = .next t ∧ t.Safe) :=
  ⟨⟨_, rfl, nofun⟩, ⟨_, rfl, nofun⟩⟩

theorem witness_UnusedFieldsAreIgnored :
    Opcode.jmp.usesReg1 = false ∧ ignoresVal .inc ∧ srcLen (.imm 0) = srcLen (.imm 5) ∧
      srcLen (.reg .a) = srcLen (.reg .z) := by
  simp [ignoresVal, Opcode.usesReg1, srcLen]

theorem witness_SemanticsIndependentOfCodes : ∃ t, exec (.inc (some .a) (.reg .b)) State.reset = .next t :=
  ⟨_, rfl⟩

/-- `mov a, 5` under the default codes and under others. -/
def recoded : State :=
  { boot [0x00060100, 5] with
    prog := Memory.ofImage (bytesOfWord 0x00750100 ++ bytesOfWord 5)
    config := { opcodeCode := otherCodes, unimplementedOps := .fault } }

theorem witness_RecodedProgramTakesTheSameStep :
    (boot [0x00060100, 5]).config.wf ∧ recoded.config.wf ∧ Memory.wf (boot [0x00060100, 5]).prog ∧
      Memory.wf recoded.prog ∧ (Instr.mov (some .a) (.imm 5)).wf = true ∧
      recoded = { boot [0x00060100, 5] with
        prog := recoded.prog
        config := { (boot [0x00060100, 5]).config with opcodeCode := recoded.config.opcodeCode } } ∧
      (boot [0x00060100, 5]).status = .running ∧
      bytesAtPc (boot [0x00060100, 5]) = encodeBytes OpcodeCode.default (.mov (some .a) (.imm 5)) ++ [] ∧
      bytesAtPc recoded = encodeBytes otherCodes (.mov (some .a) (.imm 5)) ++ [] ∧
      ∃ t, step (boot [0x00060100, 5]) = .next t :=
  ⟨by decide, by decide, by decide, by decide, by decide, rfl, by decide, by decide, by decide, _, rfl⟩

/-- A state that meets the invariant with a fault recorded and a flag set, and a step from it. -/
theorem witness_StepKeepsTheInvariant :
    ∃ t, (setFlags .equal true faultedState).Inv ∧ step (setFlags .equal true faultedState) = .next t := by
  refine ⟨_, ⟨by decide, by decide, fun _ => rfl, ?_⟩, rfl⟩
  rintro f ⟨⟩
  rfl

theorem witness_HostTransactionsKeepTheInvariant : (boot [0x00020101]).Inv :=
  ⟨by decide, by decide, nofun, nofun⟩

/-- A state that holds a fault and explains it. -/
theorem witness_RecordedFaultsStayExplained : faultedState.FaultExplained ∧ ¬ faultedState.Safe := by
  refine ⟨?_, fun h => h _ rfl⟩
  rintro f ⟨⟩
  exact ⟨_, rfl, rfl⟩

end Sys2Proof.Tests
end

section
/-! PROOFS of the statements about the state (10_state.md): the invariant, what writes a register or a flag, and what reads
a flag or an earlier result. -/

namespace Sys2Proof.Machine

open Sys2Proof.Claims

/-! ### The invariant, one lemma per update of the state -/

section Invariant

variable {s : State} (h : s.Inv)
include h

theorem inv_writeReg (r : Reg) (d : Word) : (writeReg r d s).Inv :=
  ⟨h.config_wf, h.prog_wf, h.zf_equal, h.faulted_pc⟩

theorem inv_setFlags {c : CmpFlag} {z : Bool} (hz : z = true → c = .equal) : (setFlags c z s).Inv :=
  ⟨h.config_wf, h.prog_wf, hz, h.faulted_pc⟩

theorem inv_setReturned (r : Option StepResult) : State.Inv { s with returned := r } :=
  ⟨h.config_wf, h.prog_wf, h.zf_equal, h.faulted_pc⟩

theorem inv_setHalted : State.Inv { s with status := .halted } :=
  ⟨h.config_wf, h.prog_wf, h.zf_equal, nofun⟩

/-- A completed step moves the pc, so it keeps the invariant only because it starts outside Faulted. -/
theorem inv_retired (hs : s.Safe) (p : Word) (o : Option OutputEvent) : (retired p o s).Inv :=
  ⟨h.config_wf, h.prog_wf, h.zf_equal, fun f hf => absurd hf (hs f)⟩

/-- A fault records the pc it was taken at (40_step_cycle.md R110). -/
theorem inv_faultedBy (f : Fault) : (faultedBy f s).Inv := by
  refine ⟨h.config_wf, h.prog_wf, h.zf_equal, ?_⟩
  rintro _ ⟨⟩
  rfl

end Invariant

theorem safe_of_running {s : State} (h : s.status = .running) : s.Safe := by
  simp [State.Safe, h]

/-- Every way an instruction can end keeps the invariant; cmp because its two flags tell of the same comparison. -/
theorem ExecCase.inv {i : Instr} {s t : State} (hc : ExecCase i s t) (h : s.Inv) (hs : s.Safe) : t.Inv := by
  cases hc with
  | fault f => exact inv_faultedBy h f
  | wrote r d _ _ => exact inv_retired (inv_writeReg h r d) hs _ _
  | branched p _ _ => exact inv_retired h hs _ _
  | compared r _ _ => exact inv_retired (inv_setFlags h (compareFlag_equal_iff _ _).2) hs _ _
  | halted _ => exact inv_retired (inv_setHalted h) nofun _ _
  | sent r _ _ => exact inv_retired h hs _ _
  | advanced _ => exact inv_retired h hs _ _

/-- Settles O55, by the ways a step can end. -/
theorem stepKeepsTheInvariant : Obligations.StepKeepsTheInvariant := by
  intro s t h hst
  cases step_next_cases hst with
  | halted _ => exact inv_setReturned h _
  | faulted f _ => exact inv_setReturned h _
  | error f _ _ => exact inv_faultedBy h f
  | ran i _ hrun _ _ hc => exact hc.inv h (safe_of_running hrun)

/-! ### Registers -/

/-- Settles O45, by the ways an instruction can end: only the end of an ALU instruction writes a register. -/
theorem onlyAluInstructionsWriteRegisters : Obligations.OnlyAluInstructionsWriteRegisters := by
  intro i s t q he hq
  cases exec_next_cases he with
  | wrote r d hr hop =>
    obtain rfl : q = r := by
      by_contra hne
      exact hq (by rw [readReg_retired, readReg_writeReg_ne hne])
    exact ⟨hr, hop⟩
  | fault | branched | compared | halted | sent | advanced => exact absurd rfl hq

/-! ### What an instruction reads and what it writes -/

/-- The fields that every instruction may read are the same in both states. -/
structure SameInputs (s s' : State) : Prop where
  x : s'.x = s.x
  pc : s'.pc = s.pc
  status : s'.status = s.status
  unimplementedOps : s'.config.unimplementedOps = s.config.unimplementedOps

/-- Everything that instruction `i` reads is the same in both states: a conditional branch reads its flag too
(10_state.md R25, R26). -/
structure SameReads (i : Instr) (s s' : State) : Prop extends SameInputs s s' where
  cmpf : i.opcode ∈ [Opcode.je, .jn, .jg, .jl] → s'.cmpf = s.cmpf
  zf : i.opcode = .jz → s'.zf = s.zf

/-- `s` with the fields that an instruction can write taken from `t`, the flags only if the instruction sets them. -/
def withWritesOf (setsFlags : Prop) [Decidable setsFlags] (t s : State) : State :=
  { s with
    x := t.x
    pc := t.pc
    cmpf := if setsFlags then t.cmpf else s.cmpf
    zf := if setsFlags then t.zf else s.zf
    status := t.status
    returned := t.returned }

section SameInputs

variable {s s' t : State} (h : SameInputs s s')
include h

theorem readReg_of_sameInputs (r : Reg) : readReg s' r = readReg s r := by
  simp only [readReg, h.x]

theorem srcValue_of_sameInputs (v : Src) : srcValue v s' = srcValue v s := by
  cases v with
  | reg r => exact readReg_of_sameInputs h r
  | imm n => rfl

theorem nextPc_of_sameInputs (v : Src) : nextPc v s' = nextPc v s := by
  simp only [nextPc, h.pc]

theorem isRunning_of_sameInputs : s'.isRunning = s.isRunning := by
  simp only [State.isRunning, h.status]

theorem sameInputs_writeReg (r : Reg) (d : Word) : SameInputs (writeReg r d s) (writeReg r d s') :=
  ⟨by simp only [writeReg, h.x], h.pc, h.status, h.unimplementedOps⟩

theorem sameInputs_setHalted : SameInputs { s with status := .halted } { s' with status := .halted } :=
  ⟨h.x, h.pc, rfl, h.unimplementedOps⟩

theorem retire_of_sameInputs {p : Word} {o : Option OutputEvent} (ht : retire p o s = .next t) :
    retire p o s' = .next (withWritesOf False t s') := by
  rw [retire_next.1 ht]
  simp [retire, retired, withWritesOf, isRunning_of_sameInputs h, h.x, h.status]

theorem raise_of_sameInputs {f : Fault} (ht : raise f s = .next t) :
    raise f s' = .next (withWritesOf False t s') := by
  rw [raise_next.1 ht]
  simp [raise, faultedBy, withWritesOf, h.x, h.pc]

theorem retired_setFlags_of_sameInputs (p : Word) (o : Option OutputEvent) (c : CmpFlag) (z : Bool) :
    retired p o (setFlags c z s') = withWritesOf True (retired p o (setFlags c z s)) s' := by
  simp [retired, withWritesOf, isRunning_of_sameInputs h, h.x, h.status]

theorem aluOp_of_sameInputs {op : Opcode} {r1 : Option Reg} {v : Src} {alu : Word → Word → Except Fault Word}
    (ht : aluOp op r1 v s alu = .next t) : aluOp op r1 v s' alu = .next (withWritesOf False t s') := by
  cases r1 with
  | none =>
    rw [aluOp, withReg1_none] at ht ⊢
    exact raise_of_sameInputs h ht
  | some r =>
    rw [aluOp, withReg1_some] at ht ⊢
    rw [readReg_of_sameInputs h, srcValue_of_sameInputs h, nextPc_of_sameInputs h]
    cases hd : alu (readReg s r) (srcValue v s) with
    | error f =>
      rw [hd] at ht
      exact raise_of_sameInputs h ht
    | ok d =>
      rw [hd] at ht
      exact retire_of_sameInputs (sameInputs_writeReg h r d) ht

theorem branchOp_of_sameInputs {taken : Bool} {v : Src} (ht : branchOp taken v s = .next t) :
    branchOp taken v s' = .next (withWritesOf False t s') := by
  rw [branchOp] at ht ⊢
  rw [srcValue_of_sameInputs h, nextPc_of_sameInputs h]
  exact retire_of_sameInputs h ht

theorem undefinedOp_of_sameInputs {op : Opcode} {v : Src} (ht : undefinedOp op v s = .next t) :
    undefinedOp op v s' = .next (withWritesOf False t s') := by
  rw [undefinedOp] at ht ⊢
  rw [h.unimplementedOps, nextPc_of_sameInputs h]
  cases hu : s.config.unimplementedOps with
  | fault =>
    rw [hu] at ht
    exact raise_of_sameInputs h ht
  | nop =>
    rw [hu] at ht
    exact retire_of_sameInputs h ht

end SameInputs

/-- What an instruction reads and what it writes: from a state that holds the same in everything the instruction reads, it
gives the same in everything it writes and leaves the rest of that state as it was. -/
theorem exec_of_sameReads {i : Instr} {s s' t : State} (h : SameReads i s s') (ht : exec i s = .next t) :
    exec i s' = .next (withWritesOf (i.opcode = .cmp ∧ i.r1 ≠ none) t s') := by
  obtain ⟨hin, hc, hz⟩ := h
  cases i with
  | mov r1 v | inc r1 v | shl r1 v | shr r1 v | add r1 v | sub r1 v | mul r1 v | div r1 v | xor r1 v =>
    simp only [exec_mov, exec_inc, exec_shl, exec_shr, exec_add, exec_sub, exec_mul, exec_div, exec_xor] at ht ⊢
    exact aluOp_of_sameInputs hin ht
  | mmov r1 v | mset r1 v | inp r1 v | push r1 v | pop r1 v => exact undefinedOp_of_sameInputs hin ht
  | jmp r1 v => exact branchOp_of_sameInputs hin ht
  | je r1 v | jn r1 v | jg r1 v | jl r1 v =>
    have hc : s'.cmpf = s.cmpf := hc (by simp [Instr.opcode])
    simp only [exec_je, exec_jn, exec_jg, exec_jl, condEqual, condNotEqual, condGreater, condLess, hc] at ht ⊢
    exact branchOp_of_sameInputs hin ht
  | jz r1 v =>
    have hz : s'.zf = s.zf := hz rfl
    rw [exec_jz, condZero] at ht ⊢
    rw [hz]
    exact branchOp_of_sameInputs hin ht
  | nop r1 v =>
    rw [exec_nop] at ht ⊢
    rw [nextPc_of_sameInputs hin]
    exact retire_of_sameInputs hin ht
  | hlt r1 v =>
    rw [exec_hlt] at ht ⊢
    rw [nextPc_of_sameInputs hin]
    exact retire_of_sameInputs (sameInputs_setHalted hin) ht
  | out r1 v =>
    cases r1 with
    | none => exact raise_of_sameInputs hin ht
    | some r =>
      rw [exec_out] at ht ⊢
      rw [nextPc_of_sameInputs hin, readReg_of_sameInputs hin, srcValue_of_sameInputs hin]
      exact retire_of_sameInputs hin ht
  | cmp r1 v =>
    cases r1 with
    | none => exact raise_of_sameInputs hin ht
    | some r =>
      rw [exec_cmp] at ht ⊢
      rw [nextPc_of_sameInputs hin, readReg_of_sameInputs hin, srcValue_of_sameInputs hin, retire_next.1 ht]
      exact congrArg Host.Outcome.next (retired_setFlags_of_sameInputs hin _ _ _ _)

/-- An instruction changes nothing outside of what it can write. -/
theorem withWritesOf_self_of_exec {i : Instr} {s t : State} (ht : exec i s = .next t) :
    withWritesOf (i.opcode = .cmp ∧ i.r1 ≠ none) t s = t := by
  have h := exec_of_sameReads ⟨⟨rfl, rfl, rfl, rfl⟩, fun _ => rfl, fun _ => rfl⟩ ht
  rw [ht] at h
  exact (Host.Outcome.next.inj h).symm

/-! ### Flags -/

theorem CmpFlag.toInt_eq_zero_iff (c : CmpFlag) : c.toInt = 0 ↔ c = .equal := by
  cases c <;> decide

/-- Settles O46: of an instruction other than cmp from what it can write, of a cmp from the comparison itself. -/
theorem onlyCmpWritesFlags : Obligations.OnlyCmpWritesFlags := by
  refine ⟨fun i s t ht hop => ?_, fun r v s t ht => ?_⟩
  · have hflags : ¬ (i.opcode = .cmp ∧ i.r1 ≠ none) := fun hcmp => hop hcmp.1
    rw [← withWritesOf_self_of_exec ht]
    exact ⟨if_neg hflags, if_neg hflags⟩
  · rw [exec_cmp, retire_next] at ht
    rw [ht, CmpFlag.toInt_eq_zero_iff]
    exact (compareFlag_equal_iff _ _).symm

/-- Settles O47: a state with another comparison flag holds the same in everything that an instruction other than je, jn, jg
and jl reads, and one with another zero flag in everything that an instruction other than jz reads. -/
theorem flagsAreReadOnlyByBranches : Obligations.FlagsAreReadOnlyByBranches := by
  intro i s t c z ht
  have hframe := withWritesOf_self_of_exec ht
  refine ⟨fun hop => ?_, fun hop => ?_⟩
  · have hreads : SameReads i s { s with cmpf := c } :=
      ⟨⟨rfl, rfl, rfl, rfl⟩, fun hbranch => absurd hbranch hop, fun _ => rfl⟩
    rw [exec_of_sameReads hreads ht]
    exact congrArg (fun u : State => Host.Outcome.next
      { u with cmpf := if i.opcode = Opcode.cmp ∧ i.r1 ≠ none then t.cmpf else c }) hframe
  · have hreads : SameReads i s { s with zf := z } :=
      ⟨⟨rfl, rfl, rfl, rfl⟩, fun _ => rfl, fun hjz => absurd hjz hop⟩
    rw [exec_of_sameReads hreads ht]
    exact congrArg (fun u : State => Host.Outcome.next
      { u with zf := if i.opcode = Opcode.cmp ∧ i.r1 ≠ none then t.zf else z }) hframe

/-! ### Earlier results -/

/-- No instruction reads what an earlier step returned, and each overwrites it. -/
theorem exec_setReturned (i : Instr) (s : State) (r : Option StepResult) :
    exec i { s with returned := r } = exec i s := by
  obtain ⟨t, ht, -⟩ := exec_cases i s
  have hreads : SameReads i s { s with returned := r } :=
    ⟨⟨rfl, rfl, rfl, rfl⟩, fun _ => rfl, fun _ => rfl⟩
  rw [exec_of_sameReads hreads ht, ht]
  exact congrArg Host.Outcome.next (withWritesOf_self_of_exec ht)

/-- No step reads what an earlier step returned, and each overwrites it (10_state.md R31). -/
theorem step_setReturned (s : State) (r : Option StepResult) : step { s with returned := r } = step s := by
  rcases status_cases s with h | h | ⟨f, h⟩
  · cases hf : fetchDecode s with
    | error f => rw [step_error h hf, step_error (s := { s with returned := r }) h hf]; rfl
    | ok i => rw [step_ok h hf, step_ok (s := { s with returned := r }) h hf, exec_setReturned]
  · rw [step_halted h, step_halted (s := { s with returned := r }) h]; rfl
  · rw [step_faulted h, step_faulted (s := { s with returned := r }) h]; rfl

theorem transact_step_setReturned (s : State) (r : Option StepResult) :
    transact .step { s with returned := r } = transact .step s := by
  obtain ⟨t, ht, -⟩ := step_cases s
  simp only [transact, step_setReturned, ht]

/-- A malformed load alone leaves the earlier result where it was; no transaction answers by it. -/
theorem transact_setReturned (tr : Transaction) (s : State) (r : Option StepResult) :
    ∃ r', transact tr { s with returned := r } =
      ((transact tr s).1, { (transact tr s).2 with returned := r' }) := by
  cases tr with
  | step => exact ⟨(transact .step s).2.returned, transact_step_setReturned s r⟩
  | loadProgram image =>
    by_cases hi : image.length % 4 = 0
    · refine ⟨none, ?_⟩
      rw [transact, transact, loadProgram_ok hi, loadProgram_ok hi]
    · refine ⟨r, ?_⟩
      rw [transact, transact, loadProgram_malformed hi, loadProgram_malformed hi]

/-- Settles O53, by induction on the transactions. -/
theorem earlierResultsAreNotRead : Obligations.EarlierResultsAreNotRead := by
  intro ts
  induction ts with
  | nil => exact fun s r => ⟨rfl, rfl⟩
  | cons tr ts ih =>
    intro s r
    obtain ⟨r', hr'⟩ := transact_setReturned tr s r
    obtain ⟨hanswers, hstate⟩ := ih (transact tr s).2 r'
    rw [transactAll, transactAll, hr']
    exact ⟨congrArg ((transact tr s).1 :: ·) hanswers, hstate⟩

end Sys2Proof.Machine
end

section
/-! PROOFS of the statements about the program buffer (20_memory.md): what a load puts into it, and that no step writes
it. -/

namespace Sys2Proof.Machine

open Sys2Proof.Claims

/-! ### The words of a loaded image -/

theorem loadProgram_prog {image : List Byte} (h : image.length % 4 = 0) (s : State) :
    (loadProgram image s).2.prog = Memory.ofImage image := by
  rw [loadProgram_ok h]

theorem loadProgram_nwords {image : List Byte} (h : image.length % 4 = 0) (s : State) :
    (loadProgram image s).2.nwords = image.length / 4 := by
  rw [State.nwords, loadProgram_prog h, ofImage_length]

/-- `MemRead(a, 4)` where all four bytes are in the buffer (20_memory.md R42). -/
theorem readWord_of_read {m : Memory} {a : Nat} {b0 b1 b2 b3 : Byte} (h0 : m.read a = some b0)
    (h1 : m.read (a + 1) = some b1) (h2 : m.read (a + 2) = some b2) (h3 : m.read (a + 3) = some b3) :
    m.readWord a = some (wordOfBytes b0 b1 b2 b3) := by
  simp only [Memory.readWord, h0, h1, h2, h3]

theorem readProgWord_of_lt {s : State} {i : Nat} (hi : i < s.nwords) :
    readProgWord s i = s.prog.readWord (wordAddr i) :=
  if_pos hi

/-- Settles O4: a word whose last byte the image has lies below `nwords`, so the bounds check lets its read through. -/
theorem loadedWordsAreLittleEndian : Obligations.LoadedWordsAreLittleEndian := by
  intro image s himage
  refine ⟨fun i b0 b1 b2 b3 h0 h1 h2 h3 => ?_, fun i hi => ?_⟩
  · have hin : i < (loadProgram image s).2.nwords := by
      obtain ⟨hlast, -⟩ := List.getElem?_eq_some_iff.1 h3
      rw [loadProgram_nwords himage]
      omega
    refine ⟨wordOfBytes b0 b1 b2 b3, ?_, wordOfBytes_toNat b0 b1 b2 b3⟩
    rw [readProgWord_of_lt hin, loadProgram_prog himage]
    apply readWord_of_read <;> rwa [read_ofImage]
  · exact readProgWord_out_of_bounds (by rwa [loadProgram_nwords himage])

/-! ### What every step leaves unchanged -/

/-- The byte by byte part of `SameProgram` follows from the equality of the buffers. -/
theorem sameProgram_iff {s t : State} : SameProgram s t ↔ t.prog = s.prog ∧ t.config = s.config :=
  ⟨And.right, fun h => ⟨fun a => congrArg (Memory.read · a) h.1, h⟩⟩

theorem sameProgram_trans {s t u : State} (hst : SameProgram s t) (htu : SameProgram t u) : SameProgram s u := by
  rw [sameProgram_iff] at *
  exact ⟨htu.1.trans hst.1, htu.2.trans hst.2⟩

theorem nwords_of_sameProgram {s t : State} (h : SameProgram s t) : t.nwords = s.nwords := by
  rw [State.nwords, State.nwords, (sameProgram_iff.1 h).1]

theorem exec_sameProgram {i : Instr} {s t : State} (ht : exec i s = .next t) : SameProgram s t := by
  have hframe := withWritesOf_self_of_exec ht
  exact sameProgram_iff.2 ⟨(congrArg State.prog hframe).symm, (congrArg State.config hframe).symm⟩

theorem step_sameProgram {s t : State} (ht : step s = .next t) : SameProgram s t := by
  cases step_next_cases ht with
  | ran i _ _ _ he _ => exact exec_sameProgram he
  | halted | faulted | error => exact sameProgram_iff.2 ⟨rfl, rfl⟩

/-- What every step keeps, every run keeps, and no run stops short. -/
theorem run_keeps {P : State → Prop} (hstep : ∀ s t, P s → step s = .next t → P t) (n : Nat) {s : State} (hs : P s) :
    ∃ t : State, Host.Core.run Sys2Proof.core n s = .next t ∧ P t := by
  induction n generalizing s with
  | zero => exact ⟨s, rfl, hs⟩
  | succ n ih =>
    obtain ⟨t, ht, -⟩ := step_cases s
    rw [core_run_succ n ht]
    exact ih (hstep s t hs ht)

/-- Settles O49: every step keeps having the program and the parameters of the state the run began in. -/
theorem stepsNeverWriteTheProgram : Obligations.StepsNeverWriteTheProgram := by
  intro n s
  obtain ⟨t, ht, hsame⟩ := run_keeps (P := SameProgram s)
    (fun _ _ h hst => sameProgram_trans h (step_sameProgram hst)) n (sameProgram_iff.2 ⟨rfl, rfl⟩)
  exact ⟨t, ht, hsame, nwords_of_sameProgram hsame⟩

end Sys2Proof.Machine
end

section
/-! PROOFS of the statements about encoding (30_encoding.md): the fields of the first word and the checks on them, the
round trip between instructions and bytes, and what the fields and the opcode codes mean to a step. -/

namespace Sys2Proof

/-! ### The words of an instruction -/

/-- The second register field of an operand; `none` is the Null sentinel of the RI form (30_encoding.md R61). -/
@[simp] def Src.field : Src → Option Reg
  | .reg r => some r
  | .imm _ => none

/-- The bytes an operand adds after the first word (30_encoding.md R61, R62). -/
@[simp] def Src.tailBytes : Src → List Byte
  | .reg _ => []
  | .imm n => bytesOfWord n

/-- The first word of an instruction (30_encoding.md R60). -/
def firstWord (oc : OpcodeCode) (i : Instr) : Word :=
  fieldsWord (codeOf oc i.opcode) (regCode i.r1) (regCode i.val.field)

theorem encode_eq_firstWord_cons (oc : OpcodeCode) (i : Instr) : ∃ rest, encode oc i = firstWord oc i :: rest := by
  unfold encode firstWord
  cases i.val with
  | reg r => exact ⟨[], rfl⟩
  | imm n => exact ⟨[n], rfl⟩

theorem encodeBytes_eq (oc : OpcodeCode) (i : Instr) :
    encodeBytes oc i = bytesOfWord (firstWord oc i) ++ i.val.tailBytes := by
  unfold encodeBytes encode firstWord
  cases i.val with
  | reg r => rfl
  | imm n => rfl

/-- The four bytes of a first word are r2, r1, and the low and the high byte of the opcode's code. -/
theorem bytesOfWord_eq_fields (w : Word) :
    bytesOfWord w = [r2Field w, r1Field w, BitVec.ofNat 8 ((opcField w).toNat % 2 ^ 8),
      BitVec.ofNat 8 ((opcField w).toNat / 2 ^ 8)] := by
  have h2 : w.extractLsb' 16 8 = BitVec.ofNat 8 ((opcField w).toNat % 2 ^ 8) := by
    apply BitVec.eq_of_toNat_eq
    rw [opcField_toNat, BitVec.extractLsb'_toNat, BitVec.toNat_ofNat, Nat.shiftRight_eq_div_pow, Nat.mod_mod]
  have h3 : w.extractLsb' 24 8 = BitVec.ofNat 8 ((opcField w).toNat / 2 ^ 8) := by
    apply BitVec.eq_of_toNat_eq
    rw [opcField_toNat, BitVec.extractLsb'_toNat, BitVec.toNat_ofNat, Nat.shiftRight_eq_div_pow,
      Nat.div_div_eq_div_mul, ← Nat.pow_add]
  rw [bytesOfWord, h2, h3]
  rfl

/-- Settles O6: the fields of the first word are read back from it, and its bytes are these fields. -/
theorem firstWordFields : Obligations.FirstWordFields := by
  intro oc i
  obtain ⟨rest, henc⟩ := encode_eq_firstWord_cons oc i
  refine ⟨firstWord oc i, rest, henc, ?_, ?_, ?_, ?_⟩
  · rw [← opcField_toNat, firstWord, opcField_fieldsWord]
  · rw [← r1Field_toNat, firstWord, r1Field_fieldsWord]
  · rw [← r2Field_toNat, firstWord, r2Field_fieldsWord]
    cases i.val <;> rfl
  · rw [encodeBytes_eq, bytesOfWord_eq_fields, ← r2Field_toNat, BitVec.ofNat_toNat, BitVec.setWidth_eq, firstWord,
      r1Field_fieldsWord, opcField_fieldsWord]
    rfl

/-! ### The decoder -/

theorem bytesOfWord_append_inj {w w' : Word} {rest rest' : List Byte} :
    bytesOfWord w ++ rest = bytesOfWord w' ++ rest' ↔ w = w' ∧ rest = rest' := by
  refine ⟨fun h => ?_, fun ⟨hw, hr⟩ => by rw [hw, hr]⟩
  simpa using congrArg takeWord h

/-- What the decoder accepts: a first word whose fields are the instruction's parts, and the bytes its operand adds. -/
theorem decode_eq_ok_iff {oc : OpcodeCode} {bytes rest : List Byte} {i : Instr} :
    decode oc bytes = .ok (i, rest) ↔
      ∃ w, decodeHead oc w = .ok ⟨i.opcode, i.r1, i.val.field⟩ ∧
        bytes = bytesOfWord w ++ (i.val.tailBytes ++ rest) := by
  constructor
  · intro h
    unfold decode at h
    split at h
    · cases h
    rename_i w tail hw
    split at h
    · cases h
    rename_i hd hhead
    refine ⟨w, ?_⟩
    rw [takeWord_eq_some hw, hhead]
    obtain ⟨op, r1, r2⟩ := hd
    cases r2 with
    | some r =>
      cases h
      simp
    | none =>
      simp only at h
      split at h
      · cases h
      rename_i n tail' hn
      cases h
      simp [takeWord_eq_some hn]
  · rintro ⟨w, hhead, rfl⟩
    have hparts := ofParts_parts i
    cases hv : i.val with
    | reg r | imm n =>
      rw [hv] at hhead hparts
      simp [decode, hhead, hparts]

/-- Settles O8: the first word of a well-formed instruction passes the checks on it, and the operand's bytes follow. -/
theorem decodeOfEncodeIsIdentity : Obligations.DecodeOfEncodeIsIdentity := by
  intro oc hoc i rest hwf
  rw [decode_eq_ok_iff, encodeBytes_eq, List.append_assoc]
  exact ⟨firstWord oc i, decodeHead_fieldsWord hoc (wf_iff.1 hwf), rfl⟩

/-- Settles O9: a first word that passes the checks is the first word of what it decodes to. -/
theorem encodeOfDecodeIsIdentity : Obligations.EncodeOfDecodeIsIdentity := by
  intro oc bytes i rest hdec
  obtain ⟨w, hhead, rfl⟩ := decode_eq_ok_iff.1 hdec
  obtain ⟨hw, hnull⟩ := decodeHead_ok hhead
  refine ⟨wf_iff.2 hnull, ?_⟩
  rw [encodeBytes_eq, firstWord, ← hw, List.append_assoc]

/-- Settles O7: the low byte of the first word is the code of the operand's register field, which is 0 only for Null. -/
theorem immediateIsTheWholeSecondWord : Obligations.ImmediateIsTheWholeSecondWord := by
  intro oc w rest rest' i hdec
  obtain ⟨w', hhead, hbytes⟩ := decode_eq_ok_iff.1 hdec
  obtain ⟨rfl, rfl⟩ := bytesOfWord_append_inj.1 hbytes
  obtain ⟨hw, -⟩ := decodeHead_ok hhead
  have hlow : (regCode i.val.field).toNat = w.toNat % 2 ^ 8 := by
    rw [← r2Field_toNat, hw, r2Field_fieldsWord]
  rw [← hlow]
  cases i.val with
  | reg q =>
    have hq : (regCode (some q)).toNat ≠ 0 := fun h0 => by
      simpa using regCode_eq_zero.1 (BitVec.eq_of_toNat_eq h0)
    exact ⟨fun h0 => absurd h0 hq, fun _ => ⟨rfl, q, rfl, rfl⟩⟩
  | imm n => exact ⟨fun _ => ⟨n, rfl, rfl, fun _ => rfl⟩, fun h0 => absurd rfl h0⟩

/-- Settles O10, by running the decoder on the five words. -/
theorem sampleWordsDecode : Obligations.SampleWordsDecode := by
  unfold Obligations.SampleWordsDecode
  decide

/-! ### The checks on the first word -/

theorem decodeReg_zero {f : RegField} {v : Byte} (h : v.toNat = 0) : decodeReg f v = .ok none := by
  obtain rfl : v = regCode none := BitVec.eq_of_toNat_eq h
  exact decodeReg_regCode f none

/-- Settles O12: each register field decodes exactly when it is at most 8, and to Null exactly when it is 0. -/
theorem firstWordChecksInOrder : Obligations.FirstWordChecksInOrder := by
  intro oc w op hop
  rw [← r1Field_toNat, ← r2Field_toNat]
  refine ⟨fun h1 => ?_, fun h1 h2 => ?_, fun h1 h2 hu => ?_, fun h1 h2 hu => ?_⟩
  · simp only [decodeHead, hop, decodeReg_illegal h1]
  · obtain ⟨r1, hr1⟩ := decodeReg_legal (f := .first) h1
    simp only [decodeHead, hop, hr1, decodeReg_illegal h2]
  · obtain ⟨r2, hr2⟩ := decodeReg_legal (f := .second) h2
    simp [decodeHead, hop, decodeReg_zero h1, hr2, hu]
  · obtain ⟨r1, hr1⟩ := decodeReg_legal (f := .first) h1
    obtain ⟨r2, hr2⟩ := decodeReg_legal (f := .second) h2
    have hcode1 := regCode_of_decodeReg hr1
    have hpass : (op.usesReg1 && r1.isNone) = false := by
      rcases hu with hne | hu
      · cases r1 with
        | none => exact absurd (congrArg BitVec.toNat hcode1).symm hne
        | some r => exact Bool.and_false _
      · rw [hu, Bool.false_and]
    refine ⟨⟨op, r1, r2⟩, ?_, rfl, ?_, ?_⟩
    · simp [decodeHead, hop, hr1, hr2, hpass]
    · rw [hcode1]
    · rw [regCode_of_decodeReg hr2]

/-- An opcode field that is an opcode's code is never illegal, whichever of the later checks fails. -/
theorem decodeHead_ne_illegalOpcode {oc : OpcodeCode} {w : Word} {op : Opcode}
    (hop : opcodeOf oc (opcField w) = some op) (opc : BitVec 16) : decodeHead oc w ≠ .error (.illegalOpcode opc) := by
  obtain ⟨hfirst, hsecond, hnull, hlegal⟩ := firstWordChecksInOrder oc w op hop
  rcases Nat.lt_or_ge 8 (w.toNat / 2 ^ 8 % 2 ^ 8) with h1 | h1
  · simp [hfirst h1]
  rcases Nat.lt_or_ge 8 (w.toNat % 2 ^ 8) with h2 | h2
  · simp [hsecond h1 h2]
  by_cases hn : w.toNat / 2 ^ 8 % 2 ^ 8 = 0 ∧ op.usesReg1 = true
  · simp [hnull hn.1 h2 hn.2]
  · obtain ⟨h, hh, -⟩ := hlegal h1 h2 (by simpa [imp_iff_not_or] using hn)
    simp [hh]

theorem Opcode.number_surjective : Function.Surjective Opcode.number := by
  have key : ∀ k : Fin 24, ∃ op ∈ Opcode.all, op.number = k := by decide
  intro k
  obtain ⟨op, -, hop⟩ := key k
  exact ⟨op, hop⟩

/-- Settles O11: the opcode's lookup is the first check, and the default codes are the numbers 0 to 23. -/
theorem illegalOpcodeExactly : Obligations.IllegalOpcodeExactly := by
  refine ⟨fun oc w opc => ?_, fun opc => ⟨fun h => ?_, fun h op hop => ?_⟩⟩
  · rw [← opcodeOf_eq_none, ← opcField_toNat, BitVec.toNat_inj]
    constructor
    · intro herr
      cases hop : opcodeOf oc (opcField w) with
      | some op => exact absurd herr (decodeHead_ne_illegalOpcode hop opc)
      | none =>
        obtain rfl : opcField w = opc := by simpa [decodeHead, hop] using herr
        exact ⟨rfl, hop⟩
    · rintro ⟨rfl, hop⟩
      simp only [decodeHead, hop]
  · by_contra hlt
    obtain ⟨op, hop⟩ := Opcode.number_surjective ⟨opc.toNat, by omega⟩
    exact h op (BitVec.eq_of_toNat_eq (by rw [codeOf_default, hop]))
  · have hlt := op.number.isLt
    rw [← codeOf_default, hop] at hlt
    omega

end Sys2Proof

namespace Sys2Proof.Machine

open Sys2Proof.Claims

/-! ### Fields that an opcode uses and fields that it ignores -/

theorem exec_null {op : Opcode} (hu : op.usesReg1 = true) (v : Src) (s : State) :
    exec (.ofParts op none v) s = raise (.nullRegisterOperand op) s := by
  cases op with
  | inc | shr | shl | mov | add | sub | mul | div | xor | out | cmp => rfl
  | nop | jmp | hlt | je | jn | mmov | mset | inp | push | pop | jz | jg | jl => nomatch hu

theorem faultTaken_faultedBy (f : Fault) (s : State) : FaultTaken f s (faultedBy f s) :=
  ⟨rfl, rfl, fun _ => rfl, rfl, ⟨rfl, rfl⟩, sameProgram_iff.2 ⟨rfl, rfl⟩⟩

/-- Settles O44: an opcode that uses reg1 finds no register there. -/
theorem nullFirstOperandFaults : Obligations.NullFirstOperandFaults := by
  intro op v s hu
  refine ⟨?_, faultedBy (.nullRegisterOperand op) s, exec_null hu v s, faultTaken_faultedBy _ s⟩
  rw [Instr.wf, ofParts_opcode, ofParts_r1, hu]
  rfl

theorem nextPc_of_srcLen_eq {v v' : Src} (h : srcLen v = srcLen v') (s : State) : nextPc v s = nextPc v' s := by
  rw [nextPc, nextPc, h]

theorem exec_undefined {op : Opcode} (hop : isUndefined op) (r1 : Option Reg) (v : Src) (s : State) :
    exec (.ofParts op r1 v) s = undefinedOp op v s := by
  simp only [isUndefined, List.mem_cons, List.not_mem_nil, or_false] at hop
  rcases hop with rfl | rfl | rfl | rfl | rfl <;> rfl

/-- Settles O50, by the opcode: of an ignored operand, only the length enters, through the next pc. -/
theorem unusedFieldsAreIgnored : Obligations.UnusedFieldsAreIgnored := by
  refine ⟨fun op r1 r1' v s hu => ?_, fun op r1 v v' s hop hlen => ?_⟩
  · cases op with
    | nop | jmp | hlt | je | jn | mmov | mset | inp | push | pop | jz | jg | jl => rfl
    | inc | shr | shl | mov | add | sub | mul | div | xor | out | cmp => nomatch hu
  · have hpc := nextPc_of_srcLen_eq hlen s
    simp only [ignoresVal, List.mem_cons, List.not_mem_nil, or_false] at hop
    rcases hop with rfl | rfl | rfl | hop
    · simp only [Instr.ofParts, exec_nop, hpc]
    · simp only [Instr.ofParts, exec_hlt, hpc]
    · cases r1 with
      | none => rfl
      | some r => simp only [Instr.ofParts, exec_inc, aluOp, withReg1_some, aluInc, hpc]
    · have hop : isUndefined op := by simpa [isUndefined] using hop
      simp only [exec_undefined hop, undefinedOp, hpc]

/-! ### Opcode codes -/

/-- No instruction reads the program buffer or the opcode codes. -/
theorem exec_withProgram {i : Instr} {s t : State} (ht : exec i s = .next t) (prog : Memory) {config : Config}
    (hc : config.unimplementedOps = s.config.unimplementedOps) :
    exec i { s with prog := prog, config := config } = .next { t with prog := prog, config := config } := by
  have hreads : SameReads i s { s with prog := prog, config := config } :=
    ⟨⟨rfl, rfl, rfl, hc⟩, fun _ => rfl, fun _ => rfl⟩
  rw [exec_of_sameReads hreads ht]
  exact congrArg (fun u : State => Host.Outcome.next { u with prog := prog, config := config })
    (withWritesOf_self_of_exec ht)

/-- Settles O51: an instruction does not read the codes, and it keeps the parameters as they were. -/
theorem semanticsIndependentOfCodes : Obligations.SemanticsIndependentOfCodes := by
  intro i s t oc ht
  obtain ⟨hprog, hconfig⟩ := sameProgram_iff.1 (exec_sameProgram ht)
  refine (exec_withProgram ht s.prog (config := { s.config with opcodeCode := oc }) rfl).trans ?_
  rw [hconfig, ← hprog]

/-- A step in Running at the encoding of a well-formed instruction executes it (40_step_cycle.md R112). -/
theorem step_of_encoded {s : State} {i : Instr} {rest : List Byte} (hrun : s.status = .running) (hoc : s.config.wf)
    (hprog : Memory.wf s.prog) (hwf : i.wf = true)
    (hbytes : bytesAtPc s = encodeBytes s.config.opcodeCode i ++ rest) : step s = exec i s := by
  apply step_ok hrun
  rw [fetchDecode_of_wf hprog, hbytes, decodeOfEncodeIsIdentity _ hoc i rest hwf]

/-- Settles O52: both steps execute the same instruction, which reads neither the buffer nor the codes. -/
theorem recodedProgramTakesTheSameStep : Obligations.RecodedProgramTakesTheSameStep := by
  intro s s' t i rest rest' hoc hoc' hprog hprog' hwf hs' hrun hbytes hbytes' hstep
  have hops : s'.config.unimplementedOps = s.config.unimplementedOps := congrArg (·.config.unimplementedOps) hs'
  have hrun' : s'.status = .running := (congrArg State.status hs').trans hrun
  rw [step_of_encoded hrun hoc hprog hwf hbytes] at hstep
  rw [step_of_encoded hrun' hoc' hprog' hwf hbytes']
  have h := exec_withProgram hstep s'.prog hops
  rwa [show { s with prog := s'.prog, config := s'.config } = s' by rw [hs']] at h

end Sys2Proof.Machine
end

section
/-! PROOFS of the statements about the step (40_step_cycle.md): what fetch and decode do before an instruction runs, what a
step does in each state of the sequencer and answers to the host, and that a fault leaves what led to it as it was. -/

namespace Sys2Proof.Machine

open Sys2Proof.Claims

/-! ### Fetch and decode -/

theorem fetchDecode_pcOutOfBounds {s : State} (h : readProgWord s s.pc.toNat = none) :
    fetchDecode s = .error (.pcOutOfBounds s.pc.toNat) := by
  simp only [fetchDecode, h]

theorem fetchDecode_badHead {s : State} {w : Word} {e : DecodeError} (hw : readProgWord s s.pc.toNat = some w)
    (he : decodeHead s.config.opcodeCode w = .error e) : fetchDecode s = .error (faultOfDecode s.pc e) := by
  simp only [fetchDecode, hw, he]

section ImmediateForm

variable {s : State} {w : Word} {h : Head} (hw : readProgWord s s.pc.toNat = some w)
  (hh : decodeHead s.config.opcodeCode w = .ok h) (hr2 : h.r2 = none)
include hw hh hr2

theorem fetchDecode_immediateOutOfBounds (hn : readProgWord s (s.pc.toNat + 1) = none) :
    fetchDecode s = .error (.pcOutOfBounds (s.pc.toNat + 1)) := by
  simp only [fetchDecode, hw, hh, hr2, hn]

theorem fetchDecode_immediate {n : Word} (hn : readProgWord s (s.pc.toNat + 1) = some n) :
    fetchDecode s = .ok (.ofParts h.op h.r1 (.imm n)) := by
  simp only [fetchDecode, hw, hh, hr2, hn]

end ImmediateForm

theorem readWord_of_readProgWord {s : State} {i : Nat} {w : Word} (h : readProgWord s i = some w) :
    Memory.readWord s.prog (4 * i) = some w :=
  (Option.ite_none_right_eq_some.1 h).2

theorem step_error_faultTaken {s : State} {f : Fault} (hrun : s.status = .running) (hf : fetchDecode s = .error f) :
    ∃ t, step s = .next t ∧ FaultTaken f s t :=
  ⟨faultedBy f s, step_error hrun hf, faultTaken_faultedBy f s⟩

/-- Settles O13: fetch and decode give what the decoder gives on the bytes at the pc. -/
theorem stepRunsTheDecodedInstruction : Obligations.StepRunsTheDecodedInstruction := by
  intro s i rest hrun hprog hdec
  exact step_ok hrun (by rw [fetchDecode_of_wf hprog, hdec])

/-- Settles O14: the fault is the one that stands for the decoder's rejection at this pc. -/
theorem undecodableBytesFault : Obligations.UndecodableBytesFault := by
  intro s e hrun hprog hdec
  have hf : fetchDecode s = .error (faultOfDecode s.pc e) := by rw [fetchDecode_of_wf hprog, hdec]
  obtain ⟨t, ht, htaken⟩ := step_error_faultTaken hrun hf
  refine ⟨t, _, ht, htaken, ?_⟩
  cases e with
  | illegalOpcode | illegalRegister | nullRegisterOperand | missingWord => exact ⟨rfl, rfl⟩

/-- Settles O15: the read of the word at the pc fails exactly out of bounds. -/
theorem fetchChecksTheBounds : Obligations.FetchChecksTheBounds := by
  intro s hrun
  refine ⟨fun hout => ?_, fun hin hprog => ?_⟩
  · exact step_error_faultTaken hrun (fetchDecode_pcOutOfBounds (readProgWord_out_of_bounds hout))
  · obtain ⟨w, hw⟩ := readProgWord_in_bounds hprog hin
    exact ⟨w, readWord_of_readProgWord hw, hw, fun e he => step_error_faultTaken hrun (fetchDecode_badHead hw he)⟩

/-- Settles O16: the read of the word after the pc fails exactly out of bounds. -/
theorem immediateFetchChecksTheBounds : Obligations.ImmediateFetchChecksTheBounds := by
  intro s w h hrun hprog hw hh hr2
  refine ⟨fun hout => ?_, fun hin => ?_⟩
  · exact step_error_faultTaken hrun
      (fetchDecode_immediateOutOfBounds hw hh hr2 (readProgWord_out_of_bounds hout))
  · obtain ⟨n, hn⟩ := readProgWord_in_bounds hprog hin
    exact ⟨n, readWord_of_readProgWord hn, step_ok hrun (fetchDecode_immediate hw hh hr2 hn)⟩

/-! ### The pc after an instruction -/

theorem advanced_of_pc_eq_nextPc {v : Src} {s t : State} (h : t.pc = nextPc v s) : Advanced v s t := by
  have hpc := nextPc_toNat v s
  rw [← h] at hpc
  cases v with
  | reg r | imm n => exact hpc

/-- Settles O48, by the ways an instruction can end: only a jump or branch ends at another pc than the next one. -/
theorem pcAdvancesOrBranches : Obligations.PcAdvancesOrBranches := by
  intro i s t ht hsafe
  cases exec_next_cases ht with
  | fault f => exact absurd rfl (hsafe ⟨f, s.pc⟩)
  | branched p hop hp =>
    rcases hp with hp | hp
    · exact .inl (advanced_of_pc_eq_nextPc hp)
    · exact .inr ⟨hop, hp⟩
  | wrote | compared | halted | sent | advanced => exact .inl (advanced_of_pc_eq_nextPc rfl)

/-! ### Halted and Faulted -/

/-- A step outside of Running writes nothing but what it returns (40_step_cycle.md R103, R104). -/
theorem step_stopped {s : State} (h : s.status ≠ .running) :
    ∃ r, step s = .next { s with returned := some r } := by
  rcases status_cases s with hs | hs | ⟨f, hs⟩
  · exact absurd hs h
  · exact ⟨_, step_halted hs⟩
  · exact ⟨_, step_faulted hs⟩

theorem setReturned_frame (s : State) (r : Option StepResult) :
    SameRegs s { s with returned := r } ∧ State.pc { s with returned := r } = s.pc ∧
      SameFlags s { s with returned := r } ∧ SameProgram s { s with returned := r } :=
  ⟨fun _ => rfl, rfl, ⟨rfl, rfl⟩, sameProgram_iff.2 ⟨rfl, rfl⟩⟩

/-- Settles O18: the step hands out the record that the status holds. -/
theorem faultedStepRepeatsItsRecord : Obligations.FaultedStepRepeatsItsRecord := by
  intro s f hs
  exact ⟨_, step_faulted hs, rfl, hs, setReturned_frame s _⟩

/-- Settles O19: every step keeps being the state the run began in, but for what it returned. -/
theorem stoppedMachineStaysStopped : Obligations.StoppedMachineStaysStopped := by
  intro n s hs
  have hstep : ∀ t u : State, (∃ r, t = { s with returned := r }) → step t = .next u →
      ∃ r, u = { s with returned := r } := by
    rintro _ u ⟨r, rfl⟩ hu
    obtain ⟨r', hr'⟩ := step_stopped hs
    rw [step_setReturned, hr'] at hu
    exact ⟨some r', (Host.Outcome.next.inj hu).symm⟩
  obtain ⟨_, ht, r, rfl⟩ := run_keeps hstep n ⟨s.returned, rfl⟩
  exact ⟨_, ht, rfl, setReturned_frame s r⟩

theorem loadProgram_running {image : List Byte} (h : image.length % 4 = 0) (s : State) :
    (loadProgram image s).2.status = .running := by
  rw [loadProgram_ok h]

/-- Settles O17: a step in Halted reads no memory, and each of its successors is in Halted with the same answer. -/
theorem haltedStepDoesNothing : Obligations.HaltedStepDoesNothing := by
  intro s hs
  refine ⟨?_, fun n => ?_, fun image himage => loadProgram_running himage s⟩
  · obtain ⟨hregs, hpc, hflags, hprog⟩ := setReturned_frame s (some (.ok false none))
    exact ⟨_, step_halted hs, rfl, hs, hregs, hpc, hflags, hprog,
      fun m => ⟨_, step_halted (s := { s with prog := m }) hs, rfl, hs, rfl⟩⟩
  · have hstep : ∀ t u : State, t.status = .halted ∧ t.returned = some (.ok false none) → step t = .next u →
        u.status = .halted ∧ u.returned = some (.ok false none) := by
      rintro t u ⟨ht, -⟩ hu
      rw [step_halted ht] at hu
      cases hu
      exact ⟨ht, rfl⟩
    rw [core_run_succ n (step_halted hs)]
    exact run_keeps hstep n ⟨hs, rfl⟩

/-! ### Faulting steps -/

/-- The status after an instruction: as before, Halted after hlt, or Faulted. -/
theorem ExecCase.status_cases {i : Instr} {s t : State} (hc : ExecCase i s t) :
    t.status = s.status ∨ (i.opcode = .hlt ∧ t.status = .halted) ∨ ∃ f, t = faultedBy f s := by
  cases hc with
  | fault f => exact .inr (.inr ⟨f, rfl⟩)
  | halted hop => exact .inr (.inl ⟨hop, rfl⟩)
  | wrote | branched | compared | sent | advanced => exact .inl rfl

/-- A step from Running into Faulted is the taking of a fault and nothing else (40_step_cycle.md R110). -/
theorem step_eq_faultedBy {s t : State} {r : FaultRecord} (hrun : s.status = .running) (ht : step s = .next t)
    (hr : t.status = .faulted r) : ∃ f, t = faultedBy f s := by
  cases step_next_cases ht with
  | halted h | faulted _ h => exact absurd (hrun.symm.trans h) nofun
  | error f _ _ => exact ⟨f, rfl⟩
  | ran i _ _ _ _ hc =>
    rcases hc.status_cases with hst | ⟨-, hst⟩ | hf
    · exact absurd (hr.symm.trans (hst.trans hrun)) nofun
    · exact absurd (hr.symm.trans hst) nofun
    · exact hf

/-- Settles O21: the step takes a fault, whose record is the one the state then holds. -/
theorem faultingStepIsPrecise : Obligations.FaultingStepIsPrecise := by
  intro s t r hrun ht hr
  obtain ⟨f, rfl⟩ := step_eq_faultedBy hrun ht hr
  cases hr
  exact ⟨rfl, faultTaken_faultedBy f s⟩

/-! ### What a step answers -/

theorem ExecCase.returned {i : Instr} {s t : State} (hc : ExecCase i s t) : ∃ r, t.returned = some r := by
  cases hc with
  | fault | wrote | branched | compared | halted | sent | advanced => exact ⟨_, rfl⟩

theorem transact_step {s t : State} {r : StepResult} (ht : step s = .next t) (hr : t.returned = some r) :
    transact .step s = (.stepped r, t) := by
  simp only [transact, ht, hr]

/-- Settles O20, by the ways a step can end. -/
theorem everyStepAnswersTheHost : Obligations.EveryStepAnswersTheHost := by
  intro s
  obtain ⟨t, ht, hc⟩ := step_cases s
  obtain ⟨r, hr⟩ : ∃ r, t.returned = some r := by
    cases hc with
    | halted | faulted | error => exact ⟨_, rfl⟩
    | ran _ _ _ _ _ hc => exact hc.returned
  exact ⟨t, r, ht, hr, transact_step ht hr⟩

theorem exec_of_opcode_hlt {i : Instr} (h : i.opcode = .hlt) (s : State) :
    exec i s = .next (retired (nextPc i.val s) none { s with status := .halted }) := by
  rw [← ofParts_parts i, h]
  exact exec_hlt _ _ s

/-- Settles O23, by the ways an instruction can end: out alone retires with an event. -/
theorem completedStepReturnsOk : Obligations.CompletedStepReturnsOk := by
  intro s t i hrun hf ht hsafe
  rw [step_ok hrun hf] at ht
  cases exec_next_cases ht with
  | fault f => exact absurd rfl (hsafe ⟨f, s.pc⟩)
  | sent r hr hop =>
    refine ⟨_, rfl, by simp [hop], ?_, by simp [hop]⟩
    rintro r' v rfl
    cases hr
    rfl
  | halted hop =>
    refine ⟨_, rfl, by simp [hop], ?_, fun _ => rfl⟩
    rintro r v rfl
    cases hop
  | wrote _ _ _ hop | branched _ hop _ | compared _ _ hop | advanced hop =>
    have hout : i.opcode ≠ .out := fun h => by simp [h] at hop
    have hhlt : i.opcode ≠ .hlt := fun h => by simp [h] at hop
    refine ⟨_, rfl, by simp [hout], ?_, fun h => absurd h hhlt⟩
    rintro r v rfl
    exact absurd rfl hout

/-! ### The sequencer -/

/-- A load is answered ok and resets to Running, or it is refused and changes nothing (70_reset_and_hazards.md R234). -/
theorem transact_load_cases (image : List Byte) (s : State) :
    ((transact (.loadProgram image) s).1 = .load .ok ∧ (transact (.loadProgram image) s).2.status = .running) ∨
      ((transact (.loadProgram image) s).1 ≠ .load .ok ∧ (transact (.loadProgram image) s).2 = s) := by
  by_cases himage : image.length % 4 = 0
  · exact .inl (by rw [transact, loadProgram_ok himage]; exact ⟨rfl, rfl⟩)
  · exact .inr (by rw [transact, loadProgram_malformed himage]; exact ⟨nofun, rfl⟩)

/-- Settles O22: by the status and by what fetch and decode give, and for an instruction other than hlt by the status after
it. -/
theorem sequencerTransitions : Obligations.SequencerTransitions := by
  intro s
  refine ⟨fun hs => ?_, fun f hs => ?_, fun hrun i hf => ⟨fun hop => ?_, fun hop => ?_⟩, fun hrun e hf => ?_,
    fun image hok => ?_, fun image hno => ?_⟩
  · rw [transact_step (step_halted hs) rfl]
    exact ⟨rfl, hs⟩
  · rw [transact_step (step_faulted hs) rfl]
    exact ⟨rfl, hs⟩
  · rw [transact_step ((step_ok hrun hf).trans (exec_of_opcode_hlt hop s)) rfl]
    exact ⟨rfl, rfl⟩
  · obtain ⟨t, ht, hc⟩ := exec_cases i s
    have hst : step s = .next t := (step_ok hrun hf).trans ht
    rcases hc.status_cases with hstatus | ⟨hhlt, -⟩ | ⟨f, rfl⟩
    · rw [hrun] at hstatus
      obtain ⟨out, hout, -⟩ := completedStepReturnsOk s t i hrun hf hst (safe_of_running hstatus)
      rw [transact_step hst hout]
      exact .inl ⟨out, by simp [hstatus], hstatus⟩
    · exact absurd hhlt hop
    · rw [transact_step hst rfl]
      exact .inr ⟨_, rfl, rfl⟩
  · rw [transact_step (step_error hrun hf) rfl]
    exact ⟨rfl, rfl⟩
  · rcases transact_load_cases image s with ⟨-, hrun⟩ | ⟨hno, -⟩
    · exact hrun
    · exact absurd hok hno
  · rcases transact_load_cases image s with ⟨hok, -⟩ | ⟨-, hsame⟩
    · exact absurd hok hno
    · exact hsame

/-! ### Recorded faults -/

/-- A fault leaves all that the step reads as it was, so the step put back to Running takes it again. -/
theorem faultExplained_of_step_running {s t : State} (hrun : s.status = .running) (ht : step s = .next t) :
    t.FaultExplained := by
  intro r hr
  obtain ⟨f, rfl⟩ := step_eq_faultedBy hrun ht hr
  have hback : { faultedBy f s with status := .running } = { s with returned := (faultedBy f s).returned } := by
    rw [← hrun]
    rfl
  exact ⟨_, by rw [hback, step_setReturned, ht], hr⟩

theorem faultExplained_setReturned {s : State} (h : s.FaultExplained) (r : Option StepResult) :
    State.FaultExplained { s with returned := r } := by
  intro f hf
  obtain ⟨t, ht, htf⟩ := h f hf
  exact ⟨t, (step_setReturned { s with status := .running } r).trans ht, htf⟩

theorem step_keeps_faultExplained {s t : State} (h : s.FaultExplained) (ht : step s = .next t) : t.FaultExplained := by
  by_cases hrun : s.status = .running
  · exact faultExplained_of_step_running hrun ht
  · obtain ⟨r, hr⟩ := step_stopped hrun
    rw [hr] at ht
    cases ht
    exact faultExplained_setReturned h (some r)

theorem transact_keeps_faultExplained {s : State} (h : s.FaultExplained) (tr : Transaction) :
    (transact tr s).2.FaultExplained := by
  cases tr with
  | step =>
    obtain ⟨t, r, ht, -, htr⟩ := everyStepAnswersTheHost s
    rw [htr]
    exact step_keeps_faultExplained h ht
  | loadProgram image =>
    rcases transact_load_cases image s with ⟨-, hrun⟩ | ⟨-, hsame⟩
    · exact fun f hf => absurd hf (safe_of_running hrun f)
    · rwa [hsame]

/-- Settles O57, by induction on the transactions. -/
theorem recordedFaultsStayExplained : Obligations.RecordedFaultsStayExplained := by
  intro ts
  induction ts with
  | nil => exact fun s h => h
  | cons tr ts ih => exact fun s h => ih _ (transact_keeps_faultExplained h tr)

end Sys2Proof.Machine
end

section
/-! PROOFS of the statements about the ALU and move instructions (41_alu.md): what a completed one leaves behind, the fault
of a refused operand, and what each operation computes. -/

namespace Sys2Proof.Machine

open Sys2Proof.Claims

/-! ### What an ALU instruction leaves behind -/

theorem wroteReg_retired_writeReg (r : Reg) (d : Word) (v : Src) (s : State) :
    WroteReg r d.toNat v s (retired (nextPc v s) none (writeReg r d s)) :=
  ⟨by simp, fun q hq => by simp [readReg_writeReg_ne hq], ⟨rfl, rfl⟩, rfl, sameProgram_iff.2 ⟨rfl, rfl⟩,
    advanced_of_pc_eq_nextPc rfl, rfl⟩

section Operation

variable {r : Reg} {v : Src} {s : State} (op : Opcode) (alu : Word → Word → Except Fault Word)

theorem aluOp_wroteReg {d : Word} {n : Nat} (halu : alu (readReg s r) (srcValue v s) = .ok d) (hn : d.toNat = n) :
    ∃ t, aluOp op (some r) v s alu = .next t ∧ WroteReg r n v s t :=
  ⟨_, aluOp_ok halu, hn ▸ wroteReg_retired_writeReg r d v s⟩

theorem aluOp_faultTaken {f : Fault} (halu : alu (readReg s r) (srcValue v s) = .error f) :
    ∃ t, aluOp op (some r) v s alu = .next t ∧ FaultTaken f s t :=
  ⟨_, aluOp_error halu, faultTaken_faultedBy f s⟩

end Operation

/-! ### What each operation computes -/

section Results

variable {a b : Word}

theorem aluShl_ok (h : b.toNat < 32) : aluShl a b = .ok (BitVec.ofNat 32 (a.toNat * 2 ^ b.toNat)) :=
  if_neg (Nat.not_le.2 h)

theorem aluShr_ok (h : b.toNat < 32) : aluShr a b = .ok (BitVec.ofNat 32 (a.toNat / 2 ^ b.toNat)) :=
  if_neg (Nat.not_le.2 h)

theorem aluShl_error (h : 32 ≤ b.toNat) : aluShl a b = .error (.shiftOutOfRange b) := if_pos h

theorem aluShr_error (h : 32 ≤ b.toNat) : aluShr a b = .error (.shiftOutOfRange b) := if_pos h

theorem aluDiv_ok (h : b.toNat ≠ 0) : aluDiv a b = .ok (BitVec.ofNat 32 (a.toNat / b.toNat)) := if_neg h

theorem aluDiv_error (h : b.toNat = 0) : aluDiv a b = .error .divideByZero := if_pos h

/-- A quotient by a natural number is no larger than the dividend, so narrowing it loses nothing. -/
theorem toNat_ofNat_div (a : Word) (k : Nat) : (BitVec.ofNat 32 (a.toNat / k)).toNat = a.toNat / k := by
  rw [BitVec.toNat_ofNat]
  exact Nat.mod_eq_of_lt (Nat.lt_of_le_of_lt (Nat.div_le_self _ k) a.isLt)

/-- The exact difference modulo `2^32`, with the modulus added first so that it is a natural number. -/
theorem toNat_ofInt_sub (a b : Word) :
    (BitVec.ofInt 32 ((a.toNat : Int) - (b.toNat : Int))).toNat = (a.toNat + 2 ^ 32 - b.toNat) % 2 ^ 32 := by
  have hb := b.isLt
  rw [BitVec.toNat_ofInt]
  omega

end Results

/-! ### div and xor -/

/-- Settles O30, with the quotient of natural numbers, which fits a word. -/
theorem divGivesTheQuotient : Obligations.DivGivesTheQuotient := by
  intro r v s hv
  have hpos : 0 < (srcValue v s).toNat := Nat.pos_of_ne_zero fun h0 => hv (BitVec.eq_of_toNat_eq h0)
  obtain ⟨t, ht, hwrote⟩ := aluOp_wroteReg .div aluDiv (aluDiv_ok hpos.ne') (toNat_ofNat_div (readReg s r) _)
  refine ⟨t, _, ht, hwrote, Nat.div_mul_le_self _ _, ?_⟩
  exact Nat.lt_mul_of_div_lt (Nat.lt_succ_self _) hpos

/-- Settles O31: the divisor alone is tested. -/
theorem divByZeroFaults : Obligations.DivByZeroFaults := by
  intro r v s hv
  exact aluOp_faultTaken .div aluDiv (aluDiv_error (congrArg BitVec.toNat hv))

/-- Settles O32: the value of an exclusive or is the exclusive or of the values, whose bits are known. -/
theorem xorIsBitwise : Obligations.XorIsBitwise := by
  intro r v s
  obtain ⟨t, ht, hwrote⟩ := aluOp_wroteReg (r := r) (v := v) (s := s) .xor aluXor rfl (BitVec.toNat_xor _ _)
  exact ⟨t, _, ht, hwrote, fun k _ => Nat.testBit_xor _ _ k⟩

/-! ### mov -/

/-- The default code of an opcode is its number, so an instruction's words are that number and the two fields. -/
theorem encodedWith_number (i : Instr) : EncodedWith i.opcode.number.val i := by
  unfold EncodedWith encode
  cases i.val with
  | reg q => simp [fieldsWord_toNat, codeOf_default]
  | imm n => simp [fieldsWord_toNat, codeOf_default, regCode]

/-- Settles O25: of a mov to itself, the register written holds its own value again. -/
theorem movWritesTheOperand : Obligations.MovWritesTheOperand := by
  intro r v s
  obtain ⟨t, ht, hwrote⟩ := aluOp_wroteReg (r := r) (v := v) (s := s) .mov aluMove rfl rfl
  refine ⟨⟨t, ht, hwrote⟩, (nullFirstOperandFaults .mov v s rfl).2, fun r1 => encodedWith_number (.mov r1 v), ?_⟩
  rintro rfl
  obtain ⟨hr, hothers, -⟩ := hwrote
  refine ⟨t, ht, fun q => ?_⟩
  by_cases hq : q = r
  · rw [hq]
    exact BitVec.eq_of_toNat_eq hr
  · exact hothers q hq

/-! ### inc, add, sub and mul -/

/-- Settles O26: narrowing to a word is taking the sum modulo `2^32`. -/
theorem incAddsOneAndWraps : Obligations.IncAddsOneAndWraps := by
  intro r v s
  exact aluOp_wroteReg .inc aluInc rfl (BitVec.toNat_ofNat _ _)

/-- Settles O29: narrowing to a word is taking the exact result modulo `2^32`. -/
theorem addSubMulWrap : Obligations.AddSubMulWrap := by
  intro r v s
  exact ⟨aluOp_wroteReg .add aluAdd rfl (BitVec.toNat_ofNat _ _),
    aluOp_wroteReg .sub aluSub rfl (toNat_ofInt_sub _ _), aluOp_wroteReg .mul aluMul rfl (BitVec.toNat_ofNat _ _)⟩

/-! ### shl and shr -/

/-- Settles O27: shl narrows the exact product, and the quotient of shr fits a word. -/
theorem shiftsBelowThirtyTwo : Obligations.ShiftsBelowThirtyTwo := by
  intro r v s hv
  exact ⟨aluOp_wroteReg .shl aluShl (aluShl_ok hv) (BitVec.toNat_ofNat _ _),
    aluOp_wroteReg .shr aluShr (aluShr_ok hv) (toNat_ofNat_div _ _)⟩

/-- Settles O28: both shifts refuse the amount before they compute. -/
theorem shiftsByThirtyTwoOrMoreFault : Obligations.ShiftsByThirtyTwoOrMoreFault := by
  intro r v s hv
  exact ⟨aluOp_faultTaken .shl aluShl (aluShl_error hv), aluOp_faultTaken .shr aluShr (aluShr_error hv)⟩

end Sys2Proof.Machine
end

section
/-! PROOFS of the statements about compare and control transfer (42_compare_branch.md): the flags a cmp leaves, the pc a jump
or branch leaves, and the order that a branch after a cmp follows. -/

namespace Sys2Proof.Machine

open Sys2Proof.Claims

/-! ### cmp -/

theorem compareZero_eq_true_iff (a v : Word) : compareZero a v = true ↔ a = v := beq_iff_eq

/-- Settles O33: retiring a state with both flags set keeps everything but the flags, the pc and the host's result. -/
theorem cmpSetsBothFlags : Obligations.CmpSetsBothFlags := by
  intro r v s
  exact ⟨_, exec_cmp r v s, compareFlag_toInt _ _, compareZero_eq_true_iff _ _, fun _ => rfl, rfl,
    sameProgram_iff.2 ⟨rfl, rfl⟩, advanced_of_pc_eq_nextPc rfl, rfl⟩

/-! ### What a jump or branch leaves behind -/

theorem branchOp_branched {taken : Bool} {P : Prop} (hP : taken = true ↔ P) (v : Src) (s : State) :
    ∃ t, branchOp taken v s = .next t ∧ Branched P v s t := by
  refine ⟨_, rfl, fun h => ?_, fun h => ?_, fun _ => rfl, ⟨rfl, rfl⟩, rfl, sameProgram_iff.2 ⟨rfl, rfl⟩, rfl⟩
  · exact if_pos (hP.2 h)
  · exact advanced_of_pc_eq_nextPc (if_neg fun htaken => h (hP.1 htaken))

section Branches

variable (r1 : Option Reg) (v : Src) (s : State)

theorem exec_jmp_branched : ∃ t, exec (.jmp r1 v) s = .next t ∧ Branched True v s t :=
  branchOp_branched (iff_of_true rfl trivial) v s

theorem exec_je_branched : ∃ t, exec (.je r1 v) s = .next t ∧ Branched (s.cmpf.toInt = 0) v s t :=
  branchOp_branched decide_eq_true_iff v s

theorem exec_jn_branched : ∃ t, exec (.jn r1 v) s = .next t ∧ Branched (s.cmpf.toInt ≠ 0) v s t :=
  branchOp_branched decide_eq_true_iff v s

theorem exec_jg_branched : ∃ t, exec (.jg r1 v) s = .next t ∧ Branched (0 < s.cmpf.toInt) v s t :=
  branchOp_branched decide_eq_true_iff v s

theorem exec_jl_branched : ∃ t, exec (.jl r1 v) s = .next t ∧ Branched (s.cmpf.toInt < 0) v s t :=
  branchOp_branched decide_eq_true_iff v s

theorem exec_jz_branched : ∃ t, exec (.jz r1 v) s = .next t ∧ Branched (s.zf = true) v s t :=
  branchOp_branched Iff.rfl v s

end Branches

/-! ### jmp, je, jn, jg, jl and jz -/

/-- Settles O34: the next step reads the word at the target, and that read fails exactly out of bounds. -/
theorem jmpGoesToTheOperand : Obligations.JmpGoesToTheOperand := by
  intro r1 v s
  obtain ⟨t, ht, hbranched⟩ := exec_jmp_branched r1 v s
  have hpc : t.pc = srcValue v s := hbranched.1 trivial
  refine ⟨encodedWith_number (.jmp r1 v), t, ht, hbranched, fun hrun hout => ?_⟩
  rw [← hpc] at hout ⊢
  exact (fetchChecksTheBounds t hrun).1 hout

/-- Settles O35: je and jn test the comparison flag against 0. -/
theorem equalityBranches : Obligations.EqualityBranches := by
  intro r1 v s
  exact ⟨encodedWith_number (.je r1 v), encodedWith_number (.jn r1 v), exec_je_branched r1 v s, exec_jn_branched r1 v s⟩

/-- Settles O36: jg and jl test the sign of the comparison flag. -/
theorem orderBranches : Obligations.OrderBranches := by
  intro r1 v s
  exact ⟨encodedWith_number (.jg r1 v), encodedWith_number (.jl r1 v), exec_jg_branched r1 v s, exec_jl_branched r1 v s⟩

/-- Settles O37: jz tests the zero flag. -/
theorem zeroBranch : Obligations.ZeroBranch := by
  intro r1 v s
  exact ⟨encodedWith_number (.jz r1 v), exec_jz_branched r1 v s⟩

/-! ### A branch after a cmp -/

theorem orderOf_sign_iff (a v : Nat) :
    (orderOf a v < 0 ↔ a < v) ∧ (orderOf a v = 0 ↔ a = v) ∧ (0 < orderOf a v ↔ v < a) := by
  unfold Claims.orderOf
  omega

/-- Settles O38: each branch tests a flag that the cmp has set to the order of the two values. -/
theorem compareThenBranch : Obligations.CompareThenBranch := by
  intro r v w r1 s t ht
  obtain ⟨t', ht', hcmpf, hzf, -⟩ := cmpSetsBothFlags r v s
  obtain rfl : t = t' := Host.Outcome.next.inj (ht.symm.trans ht')
  obtain ⟨hneg, hzero, hpos⟩ := orderOf_sign_iff (readReg s r).toNat (srcValue v s).toNat
  rw [BitVec.toNat_inj] at hzero
  refine ⟨?_, ?_, ?_, ?_, ?_⟩
  · simpa only [hcmpf, hneg] using exec_jl_branched r1 w t
  · simpa only [hcmpf, hpos] using exec_jg_branched r1 w t
  · simpa only [hcmpf, hzero] using exec_je_branched r1 w t
  · simpa only [hcmpf, ne_eq, hzero] using exec_jn_branched r1 w t
  · simpa only [hzf] using exec_jz_branched r1 w t

end Sys2Proof.Machine
end

section
/-! PROOFS of the statements about the system and I/O instructions (43_system_io.md): what retiring at the next pc leaves
unchanged, and what nop, hlt and out add to it. -/

namespace Sys2Proof.Machine

open Sys2Proof.Claims

/-! ### What retiring at the next pc leaves behind -/

theorem retired_nextPc_frame (v : Src) (out : Option OutputEvent) (s : State) :
    SameRegs s (retired (nextPc v s) out s) ∧ SameFlags s (retired (nextPc v s) out s) ∧
      (retired (nextPc v s) out s).status = s.status ∧ SameProgram s (retired (nextPc v s) out s) ∧
      Advanced v s (retired (nextPc v s) out s) :=
  ⟨readReg_retired _ out s, ⟨retired_cmpf _ out s, retired_zf _ out s⟩, retired_status _ out s,
    sameProgram_iff.2 ⟨retired_prog _ out s, retired_config _ out s⟩, advanced_of_pc_eq_nextPc (retired_pc _ out s)⟩

theorem onlyAdvanced_retired_nextPc (v : Src) (s : State) : OnlyAdvanced v s (retired (nextPc v s) none s) := by
  obtain ⟨hregs, hflags, hstatus, hprogram, hpc⟩ := retired_nextPc_frame v none s
  exact ⟨hregs, hflags, hstatus, hprogram, hpc, retired_returned _ none s⟩

/-! ### nop, hlt and out -/

/-- Settles O39: nop retires the state it began in, without an event. -/
theorem nopOnlyAdvances : Obligations.NopOnlyAdvances := by
  intro r1 v s
  exact ⟨encodedWith_number (.nop r1 v), _, exec_nop r1 v s, onlyAdvanced_retired_nextPc v s⟩

/-- Settles O40: hlt retires the state with its status set to Halted, so the host reads a machine that does not run. -/
theorem hltHalts : Obligations.HltHalts := by
  intro r1 v s
  obtain ⟨hregs, hflags, hstatus, hprogram, hpc⟩ := retired_nextPc_frame v none { s with status := .halted }
  exact ⟨encodedWith_number (.hlt r1 v), _, exec_hlt r1 v s, hstatus, retired_returned _ none _, hpc, hregs, hflags,
    hprogram⟩

/-- Settles O41: out retires the state it began in, with the event made of both operands' values. -/
theorem outEmitsThePortAndDatum : Obligations.OutEmitsThePortAndDatum := by
  intro r v s
  exact ⟨fun r1 => encodedWith_number (.out r1 v),
    ⟨_, exec_out r v s, retired_returned _ _ s, retired_nextPc_frame v _ s⟩,
    (nullFirstOperandFaults .out v s rfl).2⟩

end Sys2Proof.Machine
end

section
/-! PROOFS of the statements about the opcodes without defined effect (44_undefined_ops.md): the shared operation under each
value of the parameter, the same as nop or the fault. -/

namespace Sys2Proof.Machine

open Sys2Proof.Claims

/-- Settles O42: under nop, the shared operation retires the state as nop does. -/
theorem undefinedOpcodesAsNop : Obligations.UndefinedOpcodesAsNop := by
  intro op r1 v s hop hnop
  exact ⟨_, (exec_undefined hop r1 v s).trans (undefinedOp_nop hnop), exec_nop r1 v s, onlyAdvanced_retired_nextPc v s⟩

/-- Settles O43: under fault, the shared operation raises the fault before it writes anything. -/
theorem undefinedOpcodesFault : Obligations.UndefinedOpcodesFault := by
  intro op r1 v s hop hfault
  exact ⟨_, (exec_undefined hop r1 v s).trans (undefinedOp_fault hfault), faultTaken_faultedBy _ s⟩

end Sys2Proof.Machine
end

section
/-! PROOFS of the statements about reset and the host's transactions (70_reset_and_hazards.md): what a load leaves in the
state, how a step from Running can end a run, and that no transaction breaks the invariant. -/

namespace Sys2Proof.Machine

open Sys2Proof.Claims

/-! ### The invariant under the host's transactions -/

/-- A load resets everything the invariant speaks of but the parameters, or it is refused and changes nothing. -/
theorem loadProgram_keeps_inv {s : State} (h : s.Inv) (image : List Byte) : (loadProgram image s).2.Inv := by
  by_cases himage : image.length % 4 = 0
  · rw [loadProgram_ok himage]
    exact ⟨h.config_wf, ofImage_wf himage, nofun, nofun⟩
  · rwa [loadProgram_malformed himage]

theorem transact_keeps_inv {s : State} (h : s.Inv) (tr : Transaction) : (transact tr s).2.Inv := by
  cases tr with
  | step =>
    obtain ⟨t, r, ht, -, htr⟩ := everyStepAnswersTheHost s
    rw [htr]
    exact stepKeepsTheInvariant s t h ht
  | loadProgram image => exact loadProgram_keeps_inv h image

/-- Settles O56, by induction on the transactions. -/
theorem hostTransactionsKeepTheInvariant : Obligations.HostTransactionsKeepTheInvariant := by
  intro ts
  induction ts with
  | nil => exact fun s h => h
  | cons tr ts ih => exact fun s h => ih _ (transact_keeps_inv h tr)

theorem default_config_wf : Config.default.wf := by decide

/-- Settles O54: the buffer is empty, no flag is set and no fault is recorded. -/
theorem resetMeetsTheInvariant : Obligations.ResetMeetsTheInvariant :=
  ⟨default_config_wf, ofImage_wf (image := []) rfl, nofun, nofun⟩

/-! ### The end of a run -/

theorem safe_of_halted {s : State} (h : s.status = .halted) : s.Safe := by
  simp [State.Safe, h]

/-- The ways a step from Running can end, with what it answers: it takes a fault, goes on, or halts by an hlt. -/
theorem step_running_cases {s t : State} (hrun : s.status = .running) (ht : step s = .next t) :
    (∃ f, t = faultedBy f s) ∨ (∃ out, t.returned = some (.ok true out)) ∨
      (t.status = .halted ∧ t.returned = some (.ok false none) ∧ ∃ i, fetchDecode s = .ok i ∧ i.opcode = .hlt) := by
  cases step_next_cases ht with
  | halted h | faulted _ h => exact absurd (hrun.symm.trans h) nofun
  | error f _ _ => exact .inl ⟨f, rfl⟩
  | ran i _ _ hf _ hc =>
    rcases hc.status_cases with hst | ⟨hop, hst⟩ | htaken
    · rw [hrun] at hst
      obtain ⟨out, hout, -⟩ := completedStepReturnsOk s t i hrun hf ht (safe_of_running hst)
      exact .inr (.inl ⟨out, by simpa [hst] using hout⟩)
    · obtain ⟨-, -, -, -, hhlt⟩ := completedStepReturnsOk s t i hrun hf ht (safe_of_halted hst)
      exact .inr (.inr ⟨hst, hhlt hop, i, hf, hop⟩)
    · exact .inl htaken

/-- Settles O24, by the ways a step from Running can end: each answers differently. -/
theorem normalEndIsAHalt : Obligations.NormalEndIsAHalt := by
  refine ⟨?_, ?_⟩
  · rintro s t ⟨hrun, ht, hret⟩
    rcases step_running_cases hrun ht with ⟨f, rfl⟩ | ⟨out, hout⟩ | ⟨hhalt, -, hhlt⟩
    · cases hret
    · exact absurd (hout.symm.trans hret) nofun
    · exact ⟨hhalt, safe_of_halted hhalt, hhlt⟩
  · rintro s t r ⟨hrun, ht, hret⟩
    rcases step_running_cases hrun ht with ⟨f, rfl⟩ | ⟨out, hout⟩ | ⟨-, hok, -⟩
    · cases hret
      exact ⟨rfl, rfl, fun ⟨_, _, hok⟩ => absurd hok nofun⟩
    · exact absurd (hout.symm.trans hret) nofun
    · exact absurd (hok.symm.trans hret) nofun

/-! ### Before the first load -/

theorem readReg_of_cleared {s : State} (h : s.x = Vector.replicate 8 0) (r : Reg) : readReg s r = 0 := by
  simp [readReg, h]

/-- Settles O1: no register has been written, and an empty buffer has no word at the pc. -/
theorem stateBeforeFirstLoad : Obligations.StateBeforeFirstLoad :=
  ⟨readReg_of_cleared rfl, rfl, rfl, rfl, rfl, rfl, rfl, rfl, rfl,
    (fetchChecksTheBounds State.reset rfl).1 (Nat.le_refl 0)⟩

/-! ### load_program -/

/-- Settles O2: the buffer holds the image from byte 0 on. -/
theorem loadProgramResetsEverything : Obligations.LoadProgramResetsEverything := by
  intro image s himage
  have hnwords := loadProgram_nwords himage s
  rw [loadProgram_ok himage] at hnwords ⊢
  exact ⟨rfl, readReg_of_cleared rfl, rfl, rfl, rfl, rfl, hnwords, read_ofImage image, rfl⟩

/-- Settles O3: the transaction hands on the refusal of the load. -/
theorem malformedLoadChangesNothing : Obligations.MalformedLoadChangesNothing := by
  intro image s himage
  rw [transact, loadProgram_malformed himage]

/-! ### Branches before the first cmp -/

theorem loadProgram_flags {image : List Byte} (h : image.length % 4 = 0) (s : State) :
    (loadProgram image s).2.cmpf.toInt = 0 ∧ (loadProgram image s).2.zf = false := by
  rw [loadProgram_ok h]
  exact ⟨rfl, rfl⟩

theorem advanced_of_branched {taken : Prop} {v : Src} {s : State} {r : Res} (hnot : ¬ taken)
    (h : ∃ t, r = .next t ∧ Branched taken v s t) : ∃ t, r = .next t ∧ Advanced v s t := by
  obtain ⟨t, ht, -, hadvanced, -⟩ := h
  exact ⟨t, ht, hadvanced hnot⟩

/-- Settles O5: the flags a load leaves meet je's condition and no other branch's. -/
theorem branchesBeforeTheFirstCompare : Obligations.BranchesBeforeTheFirstCompare := by
  intro image s r1 v himage
  obtain ⟨hcmpf, hzf⟩ := loadProgram_flags himage s
  obtain ⟨t, ht, htarget, -⟩ := exec_je_branched r1 v (loadProgram image s).2
  refine ⟨⟨t, ht, htarget hcmpf⟩, advanced_of_branched ?_ (exec_jn_branched r1 v _),
    advanced_of_branched ?_ (exec_jg_branched r1 v _), advanced_of_branched ?_ (exec_jl_branched r1 v _),
    advanced_of_branched ?_ (exec_jz_branched r1 v _)⟩
  · exact not_not_intro hcmpf
  · exact hcmpf.not_gt
  · exact hcmpf.not_lt
  · exact Bool.eq_false_iff.1 hzf

end Sys2Proof.Machine
end
